-- ==== Sys2Proof/Word.lean ====
section
/-! DEFINITION. The word and the byte (R8): unsigned 32-bit and 8-bit quantities. All register
arithmetic of the model is `BitVec` arithmetic, which is modulo 2^32 as R8 asks; an unbounded sum
is always written through `toNat`, a signed reading through `toInt`. -/

namespace Sys2Proof

/-- A word (R8): register contents, addresses while they are computed, instruction words. -/
abbrev Word := BitVec 32

/-- A byte (R8): one unit of memory. -/
abbrev Byte := BitVec 8

end Sys2Proof
end

