-- ==== Sys2Proof/Config.lean ====
section
/-! DEFINITION. The implementation parameters of R6: the fixed ones as constants, the four marked
`parameter` as fields of `Config` with the default the spec gives them. -/

namespace Sys2Proof

/-- The four parameters of R6 (decisions D6, D9, D10, D11), each with the spec's default. Operations
whose rule names a parameter take a `Config`; the machine itself runs with `Config.hardware`. -/
structure Config where
  /-- D6: bit 25 of a SingleDataTransfer word set selects the shifted-register offset. -/
  sdtISetMeansRegister : Bool := true
  /-- D11: an out-of-bounds post-indexed transfer does not write its base back. -/
  sdtFaultSuppressesWriteback : Bool := true
  /-- D10: `MUL`/`MLA` with S write both N and Z from the result instead of only setting them. -/
  mulSClearsFlags : Bool := false
  /-- D9: `LSL #0` with S writes C from bit 0 of the register. -/
  lsl0TouchesC : Bool := false
deriving DecidableEq, Repr

/-- The parameter values of the machine modelled here: the defaults of R6. -/
def Config.hardware : Config := {}

/-- `MEM_SIZE` of R6: bytes of memory. -/
def Config.memSize : Nat := 65536

/-- The largest address at which four bytes still lie inside memory (R36, R42). -/
def Config.lastWordAddr : Nat := 65532

/-- What a byte of memory reads as when nothing has been stored there: 0 (R35, R173; decision D4). -/
def Config.unlistedByte : Byte := 0

end Sys2Proof
end

