-- ==== Sys2Proof/Syntax.lean ====
section
/-! DEFINITION. The instruction set as data: one constructor of `Instr` for each mnemonic of
spec/opcode_table.json, holding exactly the fields of the format tables R58 to R62, R66 and R68.
The table's two HALT rows are one constructor, because Halt "has no fields" and both sets of words
decode to the same variant (R62; log entry 1). -/

namespace Sys2Proof

/-- A register field of an instruction (R17): 4 bits, its value selects slot 0 to 15 directly. -/
abbrev Reg := Fin 16

/-- The sixteen values of the condition field (R71, R88): seven implemented codes and nine reserved
ones, each kept apart so that no bit of an encoding is lost. -/
inductive Cond where
  | eq | ne
  | reserved2 | reserved3 | reserved4 | reserved5 | reserved6 | reserved7 | reserved8 | reserved9
  | ge | lt | gt | le | al
  | reserved15
deriving DecidableEq, Repr

/-- The four shift types of R66 and R95. -/
inductive ShiftKind where
  | lsl | lsr | asr | ror
deriving DecidableEq, Repr

/-- The shifted-register form of an operand or an offset (R66, R68): amount, type, register. Bit 4 is
no field (R67). -/
structure ShiftedReg where
  amount : Fin 32
  kind : ShiftKind
  rm : Reg
deriving DecidableEq, Repr

/-- The second operand of a DataProcessing instruction: a rotated immediate (R65) or a shifted
register (R66). -/
inductive Operand2 where
  | imm (rot : Fin 16) (imm8 : Byte)
  | reg (sr : ShiftedReg)
deriving DecidableEq, Repr

/-- The offset of a SingleDataTransfer instruction (R68): a raw 12-bit byte count or a shifted
register. -/
inductive Offset where
  | imm (bytes : BitVec 12)
  | reg (sr : ShiftedReg)
deriving DecidableEq, Repr

/-- The sixteen values of the DataProcessing opcode field (R70, R72). -/
inductive Opcode where
  | and | eor | sub | rsb | add
  | reserved0101 | reserved0110 | reserved0111
  | tst | teq | cmp
  | reserved1011
  | orr | mov
  | reserved1110 | reserved1111
deriving DecidableEq, Repr

/-- The five variants every word is classified into (R56). -/
inductive Variant where
  | Halt | DataProcessing | Multiply | SingleDataTransfer | Branch
deriving DecidableEq, Repr

/-- The instructions, in the order of spec/opcode_table.json. `sf` is the S bit, `pre` the P bit and
`up` the U bit of the format tables; MUL carries the `rn` field it does not read, MOV its `rn` and
TST, TEQ, CMP their `rd` (R58, R59). -/
inductive Instr where
  /-- HALT: the all-zero word and every word with bits 27:26 = 11 (R62, R146). -/
  | halt
  /-- MUL (R59 with A = 0, R115). -/
  | mul (cond : Cond) (sf : Bool) (rd rn rs rm : Reg)
  /-- MLA (R59 with A = 1, R116). -/
  | mla (cond : Cond) (sf : Bool) (rd rn rs rm : Reg)
  /-- AND (R102). -/
  | and (cond : Cond) (sf : Bool) (rn rd : Reg) (op2 : Operand2)
  /-- EOR (R103). -/
  | eor (cond : Cond) (sf : Bool) (rn rd : Reg) (op2 : Operand2)
  /-- SUB (R104). -/
  | sub (cond : Cond) (sf : Bool) (rn rd : Reg) (op2 : Operand2)
  /-- RSB (R105). -/
  | rsb (cond : Cond) (sf : Bool) (rn rd : Reg) (op2 : Operand2)
  /-- ADD (R106). -/
  | add (cond : Cond) (sf : Bool) (rn rd : Reg) (op2 : Operand2)
  /-- TST (R107). -/
  | tst (cond : Cond) (sf : Bool) (rn rd : Reg) (op2 : Operand2)
  /-- TEQ (R108). -/
  | teq (cond : Cond) (sf : Bool) (rn rd : Reg) (op2 : Operand2)
  /-- CMP (R109). -/
  | cmp (cond : Cond) (sf : Bool) (rn rd : Reg) (op2 : Operand2)
  /-- ORR (R110). -/
  | orr (cond : Cond) (sf : Bool) (rn rd : Reg) (op2 : Operand2)
  /-- MOV (R111). -/
  | mov (cond : Cond) (sf : Bool) (rn rd : Reg) (op2 : Operand2)
  /-- Reserved DataProcessing opcode 0101 (R72, R112). -/
  | reserved0101 (cond : Cond) (sf : Bool) (rn rd : Reg) (op2 : Operand2)
  /-- Reserved DataProcessing opcode 0110 (R72, R112). -/
  | reserved0110 (cond : Cond) (sf : Bool) (rn rd : Reg) (op2 : Operand2)
  /-- Reserved DataProcessing opcode 0111 (R72, R112). -/
  | reserved0111 (cond : Cond) (sf : Bool) (rn rd : Reg) (op2 : Operand2)
  /-- Reserved DataProcessing opcode 1011 (R72, R112). -/
  | reserved1011 (cond : Cond) (sf : Bool) (rn rd : Reg) (op2 : Operand2)
  /-- Reserved DataProcessing opcode 1110 (R72, R112). -/
  | reserved1110 (cond : Cond) (sf : Bool) (rn rd : Reg) (op2 : Operand2)
  /-- Reserved DataProcessing opcode 1111 (R72, R112). -/
  | reserved1111 (cond : Cond) (sf : Bool) (rn rd : Reg) (op2 : Operand2)
  /-- LDR (R60 with L = 1, R125). -/
  | ldr (cond : Cond) (pre up : Bool) (rn rd : Reg) (off : Offset)
  /-- STR (R60 with L = 0, R126). -/
  | str (cond : Cond) (pre up : Bool) (rn rd : Reg) (off : Offset)
  /-- B (R61, R132): a signed count of words. -/
  | b (cond : Cond) (offset : BitVec 24)
deriving DecidableEq, Repr

/-- The DataProcessing instruction of an opcode (R58, R70). -/
def Opcode.instr (o : Opcode) (c : Cond) (sf : Bool) (rn rd : Reg) (op2 : Operand2) : Instr :=
  match o with
  | .and => .and c sf rn rd op2
  | .eor => .eor c sf rn rd op2
  | .sub => .sub c sf rn rd op2
  | .rsb => .rsb c sf rn rd op2
  | .add => .add c sf rn rd op2
  | .reserved0101 => .reserved0101 c sf rn rd op2
  | .reserved0110 => .reserved0110 c sf rn rd op2
  | .reserved0111 => .reserved0111 c sf rn rd op2
  | .tst => .tst c sf rn rd op2
  | .teq => .teq c sf rn rd op2
  | .cmp => .cmp c sf rn rd op2
  | .reserved1011 => .reserved1011 c sf rn rd op2
  | .orr => .orr c sf rn rd op2
  | .mov => .mov c sf rn rd op2
  | .reserved1110 => .reserved1110 c sf rn rd op2
  | .reserved1111 => .reserved1111 c sf rn rd op2

/-- The variant an instruction belongs to (R56, R70). -/
def Instr.variant : Instr → Variant
  | .halt => .Halt
  | .mul _ _ _ _ _ _ => .Multiply
  | .mla _ _ _ _ _ _ => .Multiply
  | .and _ _ _ _ _ => .DataProcessing
  | .eor _ _ _ _ _ => .DataProcessing
  | .sub _ _ _ _ _ => .DataProcessing
  | .rsb _ _ _ _ _ => .DataProcessing
  | .add _ _ _ _ _ => .DataProcessing
  | .tst _ _ _ _ _ => .DataProcessing
  | .teq _ _ _ _ _ => .DataProcessing
  | .cmp _ _ _ _ _ => .DataProcessing
  | .orr _ _ _ _ _ => .DataProcessing
  | .mov _ _ _ _ _ => .DataProcessing
  | .reserved0101 _ _ _ _ _ => .DataProcessing
  | .reserved0110 _ _ _ _ _ => .DataProcessing
  | .reserved0111 _ _ _ _ _ => .DataProcessing
  | .reserved1011 _ _ _ _ _ => .DataProcessing
  | .reserved1110 _ _ _ _ _ => .DataProcessing
  | .reserved1111 _ _ _ _ _ => .DataProcessing
  | .ldr _ _ _ _ _ _ => .SingleDataTransfer
  | .str _ _ _ _ _ _ => .SingleDataTransfer
  | .b _ _ => .Branch

/-- The condition field of an instruction: every variant but Halt has one (R71, R91). -/
def Instr.cond? : Instr → Option Cond
  | .halt => none
  | .mul c _ _ _ _ _ => some c
  | .mla c _ _ _ _ _ => some c
  | .and c _ _ _ _ => some c
  | .eor c _ _ _ _ => some c
  | .sub c _ _ _ _ => some c
  | .rsb c _ _ _ _ => some c
  | .add c _ _ _ _ => some c
  | .tst c _ _ _ _ => some c
  | .teq c _ _ _ _ => some c
  | .cmp c _ _ _ _ => some c
  | .orr c _ _ _ _ => some c
  | .mov c _ _ _ _ => some c
  | .reserved0101 c _ _ _ _ => some c
  | .reserved0110 c _ _ _ _ => some c
  | .reserved0111 c _ _ _ _ => some c
  | .reserved1011 c _ _ _ _ => some c
  | .reserved1110 c _ _ _ _ => some c
  | .reserved1111 c _ _ _ _ => some c
  | .ldr c _ _ _ _ _ => some c
  | .str c _ _ _ _ _ => some c
  | .b c _ => some c

end Sys2Proof
end

