-- ==== Sys2Proof/WellFormed.lean ====
section
/-! DEFINITION. Well-formedness of an instruction as a term. Every field has the width of its encoding
by its type (R58 to R62), so one check is left: the instruction must have a word of its own. The one
DataProcessing record with every field zero has none, because its word is `00000000`, which is Halt
(R57, R64). -/

namespace Sys2Proof

/-- The record of R57 and R64 whose word is taken by Halt: `andeq r0, r0, r0`. -/
def Instr.shadowedByHalt : Instr := .and .eq false 0 0 (.reg ⟨0, .lsl, 0⟩)

/-- An instruction is well-formed when it has a word of its own (R64). -/
def Instr.wellFormed (i : Instr) : Bool := decide (i ≠ Instr.shadowedByHalt)

end Sys2Proof
end

