-- ==== Sys2Proof/Decode.lean ====
section
/-! DEFINITION. The instruction codec (R55 to R78): the decoder, total on words (R56), and after it the
encoder (R78), both written from the format tables. Names ending in `ofBits` read a field, names ending
in `toBits` give the field's value back. -/

namespace Sys2Proof

/-- `w[lo+n-1:lo]` of R7: the `n` bits of `w` from bit `lo` up. -/
def field {m : Nat} (w : BitVec m) (lo n : Nat) : BitVec n := w.extractLsb' lo n

/-- A field value at bit `lo` of an otherwise zero word of `m` bits (R78). -/
def place {n : Nat} (m : Nat) (v : BitVec n) (lo : Nat) : BitVec m := v.setWidth m <<< lo

/-- The register of a 4-bit field (R17): no range check and no remapping. -/
def Reg.ofBits (b : BitVec 4) : Reg := ⟨b.toNat, b.isLt⟩

/-- The field value of a register. -/
def Reg.toBits (r : Reg) : BitVec 4 := BitVec.ofNat 4 r.val

/-- The condition of a 4-bit code (R88). -/
def Cond.ofBits (b : BitVec 4) : Cond :=
  match b.toNat with
  | 0 => .eq
  | 1 => .ne
  | 2 => .reserved2
  | 3 => .reserved3
  | 4 => .reserved4
  | 5 => .reserved5
  | 6 => .reserved6
  | 7 => .reserved7
  | 8 => .reserved8
  | 9 => .reserved9
  | 10 => .ge
  | 11 => .lt
  | 12 => .gt
  | 13 => .le
  | 14 => .al
  | _ => .reserved15

/-- The code of a condition (R88). -/
def Cond.toBits : Cond → BitVec 4
  | .eq => 0
  | .ne => 1
  | .reserved2 => 2
  | .reserved3 => 3
  | .reserved4 => 4
  | .reserved5 => 5
  | .reserved6 => 6
  | .reserved7 => 7
  | .reserved8 => 8
  | .reserved9 => 9
  | .ge => 10
  | .lt => 11
  | .gt => 12
  | .le => 13
  | .al => 14
  | .reserved15 => 15

/-- The shift type of a 2-bit field (R66). -/
def ShiftKind.ofBits (b : BitVec 2) : ShiftKind :=
  match b.toNat with
  | 0 => .lsl
  | 1 => .lsr
  | 2 => .asr
  | _ => .ror

/-- The field value of a shift type (R66). -/
def ShiftKind.toBits : ShiftKind → BitVec 2
  | .lsl => 0
  | .lsr => 1
  | .asr => 2
  | .ror => 3

/-- The opcode of a 4-bit field (R70, R72). -/
def Opcode.ofBits (b : BitVec 4) : Opcode :=
  match b.toNat with
  | 0 => .and
  | 1 => .eor
  | 2 => .sub
  | 3 => .rsb
  | 4 => .add
  | 5 => .reserved0101
  | 6 => .reserved0110
  | 7 => .reserved0111
  | 8 => .tst
  | 9 => .teq
  | 10 => .cmp
  | 11 => .reserved1011
  | 12 => .orr
  | 13 => .mov
  | 14 => .reserved1110
  | _ => .reserved1111

/-- The field value of an opcode (R70, R72). -/
def Opcode.toBits : Opcode → BitVec 4
  | .and => 0
  | .eor => 1
  | .sub => 2
  | .rsb => 3
  | .add => 4
  | .reserved0101 => 5
  | .reserved0110 => 6
  | .reserved0111 => 7
  | .tst => 8
  | .teq => 9
  | .cmp => 10
  | .reserved1011 => 11
  | .orr => 12
  | .mov => 13
  | .reserved1110 => 14
  | .reserved1111 => 15

/-- The register form of a 12-bit operand or offset (R66, R68). Bit 4 is not read (R67, decision D8). -/
def ShiftedReg.ofBits (v : BitVec 12) : ShiftedReg where
  amount := ⟨(field v 7 5).toNat, (field v 7 5).isLt⟩
  kind := ShiftKind.ofBits (field v 5 2)
  rm := Reg.ofBits (field v 0 4)

/-- The 12 bits of a shifted register; bit 4 is written 0 (decision D8). -/
def ShiftedReg.toBits (sr : ShiftedReg) : BitVec 12 :=
  place 12 (BitVec.ofNat 5 sr.amount.val) 7 ||| place 12 sr.kind.toBits 5 |||
    place 12 (Reg.toBits sr.rm) 0

/-- The second operand of a DataProcessing word: bit 25 set selects the rotated immediate (R58, R65,
R66). -/
def Operand2.ofBits (i : Bool) (v : BitVec 12) : Operand2 :=
  if i then .imm ⟨(field v 8 4).toNat, (field v 8 4).isLt⟩ (field v 0 8)
  else .reg (ShiftedReg.ofBits v)

/-- Bit 25 of the word a second operand is encoded in. -/
def Operand2.immediateFlag : Operand2 → Bool
  | .imm _ _ => true
  | .reg _ => false

/-- The 12 bits of a second operand. -/
def Operand2.toBits : Operand2 → BitVec 12
  | .imm rot imm8 => place 12 (BitVec.ofNat 4 rot.val) 8 ||| place 12 imm8 0
  | .reg sr => sr.toBits

/-- The offset of a SingleDataTransfer word (R68): the parameter `SDT_I_SET_MEANS_REGISTER` says which
value of bit 25 selects the register form (decision D6). -/
def Offset.ofBits (cfg : Config) (i : Bool) (v : BitVec 12) : Offset :=
  if i == cfg.sdtISetMeansRegister then .reg (ShiftedReg.ofBits v) else .imm v

/-- Bit 25 of the word an offset is encoded in (R68, decision D6). -/
def Offset.immediateFlag (cfg : Config) : Offset → Bool
  | .imm _ => !cfg.sdtISetMeansRegister
  | .reg _ => cfg.sdtISetMeansRegister

/-- The 12 bits of an offset. -/
def Offset.toBits : Offset → BitVec 12
  | .imm v => v
  | .reg sr => sr.toBits

/-- Classification (R56): the all-zero test first, then bits 27:26, then the Multiply test. -/
def classify (w : Word) : Variant :=
  if w = 0 then .Halt
  else if field w 26 2 = 0 then
    if w.getLsbD 25 = false ∧ w.getLsbD 7 = true ∧ w.getLsbD 4 = true then .Multiply
    else .DataProcessing
  else if field w 26 2 = 1 then .SingleDataTransfer
  else if field w 26 2 = 2 then .Branch
  else .Halt

/-- The fields of a DataProcessing word (R58). -/
def decodeDataProcessing (w : Word) : Instr :=
  (Opcode.ofBits (field w 21 4)).instr (Cond.ofBits (field w 28 4)) (w.getLsbD 20)
    (Reg.ofBits (field w 16 4)) (Reg.ofBits (field w 12 4))
    (Operand2.ofBits (w.getLsbD 25) (field w 0 12))

/-- The fields of a Multiply word (R59): bits 24:22 and 6:5 are ignored. -/
def decodeMultiply (w : Word) : Instr :=
  if w.getLsbD 21 then
    .mla (Cond.ofBits (field w 28 4)) (w.getLsbD 20) (Reg.ofBits (field w 16 4))
      (Reg.ofBits (field w 12 4)) (Reg.ofBits (field w 8 4)) (Reg.ofBits (field w 0 4))
  else
    .mul (Cond.ofBits (field w 28 4)) (w.getLsbD 20) (Reg.ofBits (field w 16 4))
      (Reg.ofBits (field w 12 4)) (Reg.ofBits (field w 8 4)) (Reg.ofBits (field w 0 4))

/-- The fields of a SingleDataTransfer word (R60): bits 22:21 are ignored (R129). -/
def decodeTransfer (w : Word) : Instr :=
  if w.getLsbD 20 then
    .ldr (Cond.ofBits (field w 28 4)) (w.getLsbD 24) (w.getLsbD 23) (Reg.ofBits (field w 16 4))
      (Reg.ofBits (field w 12 4)) (Offset.ofBits Config.hardware (w.getLsbD 25) (field w 0 12))
  else
    .str (Cond.ofBits (field w 28 4)) (w.getLsbD 24) (w.getLsbD 23) (Reg.ofBits (field w 16 4))
      (Reg.ofBits (field w 12 4)) (Offset.ofBits Config.hardware (w.getLsbD 25) (field w 0 12))

/-- The fields of a Branch word (R61): bits 25:24 are ignored (R136). -/
def decodeBranch (w : Word) : Instr := .b (Cond.ofBits (field w 28 4)) (field w 0 24)

/-- The decoder (R56): a pure, total function of the word. -/
def decode (w : Word) : Instr :=
  match classify w with
  | .Halt => .halt
  | .DataProcessing => decodeDataProcessing w
  | .Multiply => decodeMultiply w
  | .SingleDataTransfer => decodeTransfer w
  | .Branch => decodeBranch w

/-- Why a list of bytes is no instruction: every 32-bit word is one (R56, R73), so the only reason is
that fewer than four bytes are there (R55). -/
inductive DecodeError where
  | truncated (length : Nat)
deriving DecidableEq, Repr

/-- The little-endian word of four bytes, the one at the lowest address first (R36, R38). -/
def wordOfBytes (b0 b1 b2 b3 : Byte) : Word :=
  place 32 b3 24 ||| place 32 b2 16 ||| place 32 b1 8 ||| place 32 b0 0

/-- Byte `k` of a word, counted from the least significant (R37). -/
def byteOfWord (w : Word) (k : Nat) : Byte := field w (8 * k) 8

/-- The decoder on a list of bytes in memory order (R38, R55): the instruction of the first four
bytes and the bytes after them, or the named reason why there is none. -/
def decodeBytes : List Byte → Except DecodeError (Instr × List Byte)
  | b0 :: b1 :: b2 :: b3 :: rest => .ok (decode (wordOfBytes b0 b1 b2 b3), rest)
  | bytes => .error (.truncated bytes.length)

/-- The four bytes of a word in memory order (R37, R38). -/
def bytesOfWord (w : Word) : List Byte :=
  [byteOfWord w 0, byteOfWord w 1, byteOfWord w 2, byteOfWord w 3]

/-- The instruction the decoder reads from an instruction whose `nbits` bits are `w`, numbered as the
opcode table numbers them; the bits above `nbits` are 0. -/
def decodeTableWord (nbits w : Nat) : Option Instr :=
  match decodeBytes (bytesOfWord (BitVec.ofNat 32 (w % 2 ^ nbits))) with
  | .ok (i, _) => some i
  | .error _ => none

/-! The encoder (R78). -/

/-- The DataProcessing layout of R58 and R78. -/
def encodeDataProcessing (o : Opcode) (c : Cond) (sf : Bool) (rn rd : Reg) (op2 : Operand2) : Word :=
  place 32 c.toBits 28 ||| place 32 (BitVec.ofBool op2.immediateFlag) 25 ||| place 32 o.toBits 21 |||
    place 32 (BitVec.ofBool sf) 20 ||| place 32 (Reg.toBits rn) 16 ||| place 32 (Reg.toBits rd) 12 |||
    place 32 op2.toBits 0

/-- The Multiply layout of R59 and R78: bits 7:4 are `1001`. -/
def encodeMultiply (a : Bool) (c : Cond) (sf : Bool) (rd rn rs rm : Reg) : Word :=
  place 32 c.toBits 28 ||| place 32 (BitVec.ofBool a) 21 ||| place 32 (BitVec.ofBool sf) 20 |||
    place 32 (Reg.toBits rd) 16 ||| place 32 (Reg.toBits rn) 12 ||| place 32 (Reg.toBits rs) 8 |||
    place 32 (9 : BitVec 4) 4 ||| place 32 (Reg.toBits rm) 0

/-- The SingleDataTransfer layout of R60 and R78. -/
def encodeTransfer (l : Bool) (c : Cond) (pre up : Bool) (rn rd : Reg) (off : Offset) : Word :=
  place 32 c.toBits 28 ||| place 32 (1 : BitVec 2) 26 |||
    place 32 (BitVec.ofBool (off.immediateFlag Config.hardware)) 25 |||
    place 32 (BitVec.ofBool pre) 24 ||| place 32 (BitVec.ofBool up) 23 ||| place 32 (BitVec.ofBool l) 20 |||
    place 32 (Reg.toBits rn) 16 ||| place 32 (Reg.toBits rd) 12 ||| place 32 off.toBits 0

/-- The Branch layout of R61 and R78: bits 27:24 are `1010`. -/
def encodeBranch (c : Cond) (offset : BitVec 24) : Word :=
  place 32 c.toBits 28 ||| place 32 (10 : BitVec 4) 24 ||| place 32 offset 0

/-- The encoder (R78): the canonical word of an instruction. -/
def encode : Instr → Word
  | .halt => 0
  | .mul c sf rd rn rs rm => encodeMultiply false c sf rd rn rs rm
  | .mla c sf rd rn rs rm => encodeMultiply true c sf rd rn rs rm
  | .and c sf rn rd op2 => encodeDataProcessing .and c sf rn rd op2
  | .eor c sf rn rd op2 => encodeDataProcessing .eor c sf rn rd op2
  | .sub c sf rn rd op2 => encodeDataProcessing .sub c sf rn rd op2
  | .rsb c sf rn rd op2 => encodeDataProcessing .rsb c sf rn rd op2
  | .add c sf rn rd op2 => encodeDataProcessing .add c sf rn rd op2
  | .tst c sf rn rd op2 => encodeDataProcessing .tst c sf rn rd op2
  | .teq c sf rn rd op2 => encodeDataProcessing .teq c sf rn rd op2
  | .cmp c sf rn rd op2 => encodeDataProcessing .cmp c sf rn rd op2
  | .orr c sf rn rd op2 => encodeDataProcessing .orr c sf rn rd op2
  | .mov c sf rn rd op2 => encodeDataProcessing .mov c sf rn rd op2
  | .reserved0101 c sf rn rd op2 => encodeDataProcessing .reserved0101 c sf rn rd op2
  | .reserved0110 c sf rn rd op2 => encodeDataProcessing .reserved0110 c sf rn rd op2
  | .reserved0111 c sf rn rd op2 => encodeDataProcessing .reserved0111 c sf rn rd op2
  | .reserved1011 c sf rn rd op2 => encodeDataProcessing .reserved1011 c sf rn rd op2
  | .reserved1110 c sf rn rd op2 => encodeDataProcessing .reserved1110 c sf rn rd op2
  | .reserved1111 c sf rn rd op2 => encodeDataProcessing .reserved1111 c sf rn rd op2
  | .ldr c pre up rn rd off => encodeTransfer true c pre up rn rd off
  | .str c pre up rn rd off => encodeTransfer false c pre up rn rd off
  | .b c offset => encodeBranch c offset

/-- The bytes of an instruction in memory order (R38, R85). -/
def encodeBytes (i : Instr) : List Byte := bytesOfWord (encode i)

end Sys2Proof
end

