-- ==== Sys2Proof/Machine/Memory.lean ====
section
/-! DEFINITION. The byte memory (R34, R48): 65536 bytes, one flat address space for fetches, loads and
stores. It is held as the list of the bytes that differ from what an unlisted address reads as, by
rising address, so that equal memories are equal data. -/

namespace Sys2Proof.Machine

/-- The memory (R34): `cells` lists address and byte pairs in canonical form, see `Memory.wf`. -/
structure Memory where
  cells : List Host.Cell
deriving DecidableEq, Repr

/-- The byte the list gives an address (R47: reading changes nothing). -/
def lookupCell : List Host.Cell → Nat → Byte
  | [], _ => Config.unlistedByte
  | (b, v) :: rest, a => if b = a then v else lookupCell rest a

/-- The list with one byte stored; storing what an unlisted address reads as takes the entry out. -/
def storeCell : List Host.Cell → Nat → Byte → List Host.Cell
  | [], a, v => if v = Config.unlistedByte then [] else [(a, v)]
  | (b, u) :: rest, a, v =>
    if a < b then
      if v = Config.unlistedByte then (b, u) :: rest else (a, v) :: (b, u) :: rest
    else if a = b then
      if v = Config.unlistedByte then rest else (a, v) :: rest
    else (b, u) :: storeCell rest a v

/-- The canonical form from address `lo` up: addresses strictly rising and inside memory, no entry equal
to what an unlisted address reads as. -/
def wfCells (lo : Nat) : List Host.Cell → Bool
  | [] => true
  | (a, v) :: rest =>
    decide (lo ≤ a) && decide (a < Config.memSize) && decide (v ≠ Config.unlistedByte) &&
      wfCells (a + 1) rest

/-- The canonical form of memory. -/
def Memory.wf (m : Memory) : Bool := wfCells 0 m.cells

/-- Memory with nothing listed: every byte reads 0 (R35, R173). -/
def Memory.empty : Memory := ⟨[]⟩

/-- `M[a]`: the byte at a byte address (R36). -/
def Memory.read (m : Memory) (a : Nat) : Byte := lookupCell m.cells a

/-- `M[a] <- v` (R37). -/
def Memory.write (m : Memory) (a : Nat) (v : Byte) : Memory := ⟨storeCell m.cells a v⟩

/-- `MemRead(a, 4)` for `a <= 65532` (R36): little-endian. -/
def Memory.readWord (m : Memory) (a : Nat) : Word :=
  wordOfBytes (m.read a) (m.read (a + 1)) (m.read (a + 2)) (m.read (a + 3))

/-- `MemWrite(a, 4, v)` for `a <= 65532` (R37): little-endian. -/
def Memory.writeWord (m : Memory) (a : Nat) (v : Word) : Memory :=
  (((m.write a (byteOfWord v 0)).write (a + 1) (byteOfWord v 1)).write (a + 2)
    (byteOfWord v 2)).write (a + 3) (byteOfWord v 3)

/-- An address at which a four-byte access has no meaning although its first byte exists (R42). -/
def straddles (a : Nat) : Bool := decide (Config.lastWordAddr < a) && decide (a < Config.memSize)

/-- The bytes of an image stored from an address up (R173). -/
def storeImage (m : Memory) (a : Nat) : List Byte → Memory
  | [] => m
  | v :: rest => storeImage (m.write a v) (a + 1) rest

/-- The memory an image gives: its bytes from address 0 up, every other byte 0 (R173, decision D4). -/
def Memory.ofImage (image : List Byte) : Memory := storeImage Memory.empty 0 image

end Sys2Proof.Machine
end

