-- ==== Sys2Proof/Machine/State.lean ====
section
/-! DEFINITION. The state of the machine (R15, R32 to R35), the reasons a step can stop, and the state
after reset (R172). -/

namespace Sys2Proof.Machine

/-- The controller state (R33), with the spec's names. -/
inductive Ctl where
  | Skip | Continue | Stop
deriving DecidableEq, Repr

/-- A reported condition with its address (R155 to R158): an output event, not a trap. -/
inductive Report where
  | DataAddressOutOfBounds (ea : Word)
  | BranchTargetOutOfBounds (target : Word)
deriving DecidableEq, Repr

/-- The reasons to stop with a fault: none. The hardware has no fault (R154), its two run-time
conditions are reported and the run goes on (R155), and the spec asks for a refusal where it gives no
meaning (R9); so no step raises one, which is safe. -/
inductive Fault where
deriving DecidableEq, Repr

/-- The reasons a step has no next state. -/
inductive Refusal where
  /-- Raised by an arm of `exec` whose instruction has no meaning in the model yet. Safe. -/
  | notModelled (mnemonic : String)
  /-- Raised by a DataProcessing word with a reserved opcode whose condition passes (R72, R112): the
  spec gives it no effect and asks for a refusal. Safe. -/
  | reservedOpcode (opcode : Opcode)
  /-- Raised by LDR and STR at an effective address of 65533 to 65535 (R42): the access needs bytes
  that do not exist and the spec asks for a refusal. Safe. -/
  | straddlingAccess (ea : Word)
  /-- Raised by the instruction fetch at a `pc` of 65533 to 65535 (R42, R144). Safe. -/
  | straddlingFetch (pc : Word)
deriving DecidableEq, Repr

/-- The state (10_state.md): the register file of 17 words with `pc` in slot 15 and the flags in slot
16 (R15, R21, R26), the memory (R34), the two pipeline latches (R32), the controller state (R33) and
the reports emitted so far, oldest first (R155). -/
structure State where
  regs : Vector Word 17
  mem : Memory
  f : Word
  d : Word
  ctl : Ctl
  reports : List Report
deriving DecidableEq, Repr

/-- The reset sequence (R172) over the memory that is in place at reset release: every slot 0, then the
priming fetch at address 0, `pc` at 4, `ctl` at `Skip`. The latch `D` has no content until the first
cycle ends and nothing reads it before (R32); 0 stands there (log entry 2). A new run has no reports
yet (log entry 3). -/
def State.afterReset (mem : Memory) : State where
  regs := (Vector.replicate 17 (0 : Word)).set 15 4
  mem := mem
  f := mem.readWord 0
  d := 0
  ctl := .Skip
  reports := []

/-- The machine right after reset with no image placed: memory reads 0 everywhere (R35, R173). -/
def State.reset : State := State.afterReset Memory.empty

end Sys2Proof.Machine
end

