-- ==== Sys2Proof/Machine/Ops.lean ====
section
/-! DEFINITION. The named operations over registers, latches and reports that the meanings share.

The hardware takes no exception (R154, R161): no register saves a `pc`, no vector exists and nothing
returns. What it has in that place is a report, and `State.reportAndContinue` is the one operation that
makes it. -/

namespace Sys2Proof.Machine

/-- A slot of the register file (R15): 0 to 16. -/
abbrev Slot := Fin 17

/-- Slot 15, the program counter (R21). -/
def pcSlot : Slot := 15

/-- Slot 16, the flag register (R26). -/
def cpsrSlot : Slot := 16

/-- The slot a register field selects (R17): slots 0 to 15, never the flag register. -/
def slotOf (r : Reg) : Slot := r.castSucc

/-- `x[i]` (R9). No slot is hard-wired (R15). -/
def State.read (s : State) (i : Slot) : Word := s.regs[i.val]'i.isLt

/-- `x[i] <- v` (R9). -/
def State.write (s : State) (i : Slot) (v : Word) : State := { s with regs := s.regs.set i.val v i.isLt }

/-- `pc` (R9): the byte address of the next word the pipeline will fetch (R21). -/
def State.pc (s : State) : Word := s.read pcSlot

/-- `cpsr` (R9). -/
def State.cpsr (s : State) : Word := s.read cpsrSlot

/-- `ctl <- c` (R9). -/
def State.setCtl (s : State) (c : Ctl) : State := { s with ctl := c }

/-- The state with another memory. -/
def State.setMem (s : State) (m : Memory) : State := { s with mem := m }

/-- The state with the fetch latch and the decode latch loaded. -/
def State.setLatches (s : State) (f d : Word) : State := { s with f := f, d := d }

/-- `report r` (R9, R155): the event goes to the end of the list, nothing else changes. -/
def State.report (s : State) (r : Report) : State := { s with reports := s.reports ++ [r] }

/-- A reported condition (R154 to R157): the report is emitted, the outcome is `Continue`, and the
instruction does nothing else. -/
def State.reportAndContinue (s : State) (r : Report) : State := (s.report r).setCtl .Continue

/-- An address of memory (R40, R41): below 65536 as an unsigned number. -/
def inBounds (a : Word) : Bool := decide (a.toNat < Config.memSize)

/-- The run has ended (R145): the controller is at `Stop` or `pc` has left memory. This is the output
`stopped` of R12. -/
def State.stopped (s : State) : Bool := decide (s.ctl = .Stop) || !inBounds s.pc

/-- The outcome of a step or of an instruction. -/
abbrev Result := Host.Outcome State Fault Refusal

end Sys2Proof.Machine
end

