-- ==== Sys2Proof/Machine/Condition.lean ====
section
/-! DEFINITION. The flags as read (R26) and the condition evaluator (R87 to R92). -/

namespace Sys2Proof.Machine

/-- The four condition flags (R26). -/
structure Flags where
  n : Bool
  z : Bool
  c : Bool
  v : Bool
deriving DecidableEq, Repr

/-- The flags of a flag register: bits 31, 30, 29 and 28 (R26). -/
def flagsOf (cpsr : Word) : Flags where
  n := cpsr.getLsbD 31
  z := cpsr.getLsbD 30
  c := cpsr.getLsbD 29
  v := cpsr.getLsbD 28

/-- The flags of a state. -/
def State.flags (s : State) : Flags := flagsOf s.cpsr

/-- `ConditionPassed` (R88): seven implemented codes; the nine reserved ones never pass (R89). -/
def conditionPassed (c : Cond) (fl : Flags) : Bool :=
  match c with
  | .eq => fl.z
  | .ne => !fl.z
  | .ge => fl.n == fl.v
  | .lt => fl.n != fl.v
  | .gt => !fl.z && fl.n == fl.v
  | .le => fl.z || fl.n != fl.v
  | .al => true
  | .reserved2 => false
  | .reserved3 => false
  | .reserved4 => false
  | .reserved5 => false
  | .reserved6 => false
  | .reserved7 => false
  | .reserved8 => false
  | .reserved9 => false
  | .reserved15 => false

/-- The gate in front of every instruction but Halt (R90): an instruction whose condition fails does
nothing and its outcome is `Continue`. -/
def whenPassed (c : Cond) (s : State) (effect : Result) : Result :=
  if conditionPassed c s.flags then effect else .next (s.setCtl .Continue)

end Sys2Proof.Machine
end

