-- ==== Sys2Proof/Machine/Operands.lean ====
section
/-! DEFINITION. Operand assembly: the shift and rotate unit (R65, R94 to R97), the address-mode
calculator (R68, R121, R122) and the branch displacement (R69). -/

namespace Sys2Proof.Machine

/-- `ROR32(v, n)` (R9, R95): rotation right by `n` mod 32 places. -/
def ror32 (v : Word) (n : Nat) : Word := (v >>> (n % 32)) ||| (v <<< (32 - n % 32))

/-- The shifter (R95), with amount 0 passing the value through for every type (R96). -/
def shiftWord (kind : ShiftKind) (v : Word) (n : Nat) : Word :=
  if n = 0 then v
  else
    match kind with
    | .lsl => v <<< n
    | .lsr => v >>> n
    | .asr => v.sshiftRight n
    | .ror => ror32 v n

/-- The C the shifter writes, if any (R97, decision D23): for a left shift with S = 1, bit number
`n` of the unshifted value. Amount 0 writes none, unless the parameter `LSL0_TOUCHES_C` says so (R96,
decision D9). -/
def shifterCarry (cfg : Config) (kind : ShiftKind) (v : Word) (n : Nat) (sf : Bool) : Option Bool :=
  match kind with
  | .lsl => if sf && (decide (n ≠ 0) || cfg.lsl0TouchesC) then some (v.getLsbD n) else none
  | .lsr => none
  | .asr => none
  | .ror => none

/-- The value of a rotated immediate (R65). -/
def immediateValue (rot : Fin 16) (imm8 : Byte) : Word := ror32 (imm8.setWidth 32) (2 * rot.val)

/-- The value of a shifted register (R94). -/
def shiftedValue (sr : ShiftedReg) (s : State) : Word :=
  shiftWord sr.kind (s.read (slotOf sr.rm)) sr.amount.val

/-- The word `Operand2` returns (R94). -/
def operand2Value (op2 : Operand2) (s : State) : Word :=
  match op2 with
  | .imm rot imm8 => immediateValue rot imm8
  | .reg sr => shiftedValue sr s

/-- The C `Operand2` writes, if any (R94, R97): an immediate rotation writes none. -/
def operand2Carry (cfg : Config) (op2 : Operand2) (sf : Bool) (s : State) : Option Bool :=
  match op2 with
  | .imm _ _ => none
  | .reg sr => shifterCarry cfg sr.kind (s.read (slotOf sr.rm)) sr.amount.val sf

/-- The offset of a transfer before its sign (R121): the register form is resolved as an operand is,
without any flag effect (R130). -/
def offsetValue (off : Offset) (s : State) : Word :=
  match off with
  | .imm bytes => bytes.setWidth 32
  | .reg sr => shiftedValue sr s

/-- The signed offset (R122): negated when U = 0. -/
def signedOffset (up : Bool) (off : Offset) (s : State) : Word :=
  if up then offsetValue off s else 0 - offsetValue off s

/-- The base moved by the signed offset (R122). -/
def indexedBase (up : Bool) (rn : Reg) (off : Offset) (s : State) : Word :=
  s.read (slotOf rn) + signedOffset up off s

/-- The effective address (R122): the moved base when P = 1, else the base itself. -/
def effectiveAddress (pre up : Bool) (rn : Reg) (off : Offset) (s : State) : Word :=
  if pre then indexedBase up rn off s else s.read (slotOf rn)

/-- The state after the post-index write-back, which only P = 0 makes (R122). -/
def baseWrittenBack (pre up : Bool) (rn : Reg) (off : Offset) (s : State) : State :=
  if pre then s else s.write (slotOf rn) (indexedBase up rn off s)

/-- The byte displacement of a branch (R69): the field with two zero bits below it, sign-extended. -/
def branchDelta (offset : BitVec 24) : Word := (place 26 offset 2).signExtend 32

/-- The target of a branch (R133): the sum with the current `pc`, modulo 2^32. -/
def branchTarget (offset : BitVec 24) (s : State) : Word := s.pc + branchDelta offset

end Sys2Proof.Machine
end

