-- ==== Sys2Proof/Machine/Branch.lean ====
section
/-! DEFINITION. Control flow: the Branch instruction (44_branch.md) and Halt (45_pipeline_halt.md). -/

namespace Sys2Proof.Machine

/-- A branch whose condition passed (R132): taken when the target is in bounds, with outcome `Skip`
(R135); else a report, `pc` unchanged and outcome `Continue` (R134). -/
def branchEffect (offset : BitVec 24) (s : State) : State :=
  let target := branchTarget offset s
  if inBounds target then (s.write pcSlot target).setCtl .Skip
  else s.reportAndContinue (.BranchTargetOutOfBounds target)

/-- B (R132). No register receives a return address (R136). -/
def execB (c : Cond) (offset : BitVec 24) (s : State) : Result :=
  whenPassed c s (.next (branchEffect offset s))

/-- HALT (R146, R147): the outcome is `Stop` in every flag state and nothing else changes. -/
def execHalt (s : State) : Result := .next (s.setCtl .Stop)

end Sys2Proof.Machine
end

