-- ==== Sys2Proof/Machine/Flags.lean ====
section
/-! DEFINITION. Every flag computation (R97 to R100, R117). Each write is a write of single bits of slot
16 that leaves the other bits as they are (R30); V and bits 27:0 are written by none (R29, R30). -/

namespace Sys2Proof.Machine

/-- `w[i] <- b` (R7): one bit overwritten, the others untouched. -/
def setBit (w : Word) (i : Nat) (b : Bool) : Word :=
  if b then w ||| place 32 (1 : BitVec 1) i else w &&& ~~~ place 32 (1 : BitVec 1) i

/-- A single-bit write that may be absent. -/
def setBit? (w : Word) (i : Nat) : Option Bool → Word
  | none => w
  | some b => setBit w i b

/-- The flag register after a DataProcessing instruction with S = 1, in the order of R93: the shifter's
C (R97), then N and Z from the result (R99), then the ALU's C (R100). -/
def dataProcessingFlags (cpsr : Word) (shifterC : Option Bool) (res : Word) (aluC : Option Bool) : Word :=
  let w1 := setBit? cpsr 29 shifterC
  let w2 := setBit (setBit w1 31 (res.getLsbD 31)) 30 (decide (res = 0))
  setBit? w2 29 aluC

/-- The flag register after MUL or MLA with S = 1 (R117): a negative result sets N, else a zero result
sets Z, and nothing is cleared. With the parameter `MUL_S_CLEARS_FLAGS` both flags follow the result
(decision D10). -/
def multiplyFlags (cfg : Config) (cpsr res : Word) : Word :=
  if cfg.mulSClearsFlags then setBit (setBit cpsr 31 (res.getLsbD 31)) 30 (decide (res = 0))
  else if res.getLsbD 31 then setBit cpsr 31 true
  else if res = 0 then setBit cpsr 30 true
  else cpsr

end Sys2Proof.Machine
end

