-- ==== Sys2Proof/Machine/DataProcessing.lean ====
section
/-! DEFINITION. The DataProcessing instructions (41_data_processing.md): the common sequence of R93
once, then one meaning for each opcode. -/

namespace Sys2Proof.Machine

/-- What an ALU operation gives: the 32-bit result and the C it writes, if any (R100). -/
structure AluOutput where
  res : Word
  carry : Option Bool
deriving DecidableEq, Repr

/-- C of an addition (R100): the unbounded sum reaches 2^32. -/
def addCarry (a b : Word) : Bool := decide (2 ^ 32 ≤ a.toNat + b.toNat)

/-- C of `a - b` (R100): no borrow, that is `a >= b` unsigned. -/
def subCarry (a b : Word) : Bool := decide (b.toNat ≤ a.toNat)

/-- The common sequence of R93 after the condition passed: both operands are read before anything is
written, the result goes to `rd` when the opcode writes one, the flags change only with S = 1 (R98), and
the outcome is `Continue` whatever `rd` is (R101). -/
def dataProcessingEffect (cfg : Config) (writesRd : Bool) (op : Word → Word → AluOutput) (sf : Bool)
    (rn rd : Reg) (op2 : Operand2) (s : State) : State :=
  let out := op (s.read (slotOf rn)) (operand2Value op2 s)
  let s1 := if writesRd then s.write (slotOf rd) out.res else s
  let s2 :=
    if sf then
      s1.write cpsrSlot (dataProcessingFlags s.cpsr (operand2Carry cfg op2 sf s) out.res out.carry)
    else s1
  s2.setCtl .Continue

/-- A DataProcessing instruction with a defined opcode (R93). -/
def dataProcessing (cfg : Config) (writesRd : Bool) (op : Word → Word → AluOutput) (c : Cond) (sf : Bool)
    (rn rd : Reg) (op2 : Operand2) (s : State) : Result :=
  whenPassed c s (.next (dataProcessingEffect cfg writesRd op sf rn rd op2 s))

/-- A DataProcessing instruction with a reserved opcode (R72, R112): a no-op when its condition fails,
and no meaning when it passes. -/
def reservedDataProcessing (o : Opcode) (c : Cond) (s : State) : Result :=
  whenPassed c s (.refused (.reservedOpcode o))

/-- `a & b` (R102, R107). -/
def aluAnd (a b : Word) : AluOutput := ⟨a &&& b, none⟩

/-- `a ^ b` (R103, R108). -/
def aluEor (a b : Word) : AluOutput := ⟨a ^^^ b, none⟩

/-- `a - b` with C = no borrow (R104, R109). -/
def aluSub (a b : Word) : AluOutput := ⟨a - b, some (subCarry a b)⟩

/-- `b - a` with C = no borrow (R105). -/
def aluRsb (a b : Word) : AluOutput := ⟨b - a, some (subCarry b a)⟩

/-- `a + b` with C = carry out (R106). -/
def aluAdd (a b : Word) : AluOutput := ⟨a + b, some (addCarry a b)⟩

/-- `a | b` (R110). -/
def aluOrr (a b : Word) : AluOutput := ⟨a ||| b, none⟩

/-- `b`: the first operand is read and discarded (R111). -/
def aluMov (_a b : Word) : AluOutput := ⟨b, none⟩

/-- AND (R102). -/
def execAnd (c : Cond) (sf : Bool) (rn rd : Reg) (op2 : Operand2) (s : State) : Result :=
  dataProcessing Config.hardware true aluAnd c sf rn rd op2 s

/-- EOR (R103). -/
def execEor (c : Cond) (sf : Bool) (rn rd : Reg) (op2 : Operand2) (s : State) : Result :=
  dataProcessing Config.hardware true aluEor c sf rn rd op2 s

/-- SUB (R104). -/
def execSub (c : Cond) (sf : Bool) (rn rd : Reg) (op2 : Operand2) (s : State) : Result :=
  dataProcessing Config.hardware true aluSub c sf rn rd op2 s

/-- RSB (R105). -/
def execRsb (c : Cond) (sf : Bool) (rn rd : Reg) (op2 : Operand2) (s : State) : Result :=
  dataProcessing Config.hardware true aluRsb c sf rn rd op2 s

/-- ADD (R106). -/
def execAdd (c : Cond) (sf : Bool) (rn rd : Reg) (op2 : Operand2) (s : State) : Result :=
  dataProcessing Config.hardware true aluAdd c sf rn rd op2 s

/-- TST (R107): no general register is written. -/
def execTst (c : Cond) (sf : Bool) (rn rd : Reg) (op2 : Operand2) (s : State) : Result :=
  dataProcessing Config.hardware false aluAnd c sf rn rd op2 s

/-- TEQ (R108): no general register is written. -/
def execTeq (c : Cond) (sf : Bool) (rn rd : Reg) (op2 : Operand2) (s : State) : Result :=
  dataProcessing Config.hardware false aluEor c sf rn rd op2 s

/-- CMP (R109): no general register is written. -/
def execCmp (c : Cond) (sf : Bool) (rn rd : Reg) (op2 : Operand2) (s : State) : Result :=
  dataProcessing Config.hardware false aluSub c sf rn rd op2 s

/-- ORR (R110). -/
def execOrr (c : Cond) (sf : Bool) (rn rd : Reg) (op2 : Operand2) (s : State) : Result :=
  dataProcessing Config.hardware true aluOrr c sf rn rd op2 s

/-- MOV (R111). -/
def execMov (c : Cond) (sf : Bool) (rn rd : Reg) (op2 : Operand2) (s : State) : Result :=
  dataProcessing Config.hardware true aluMov c sf rn rd op2 s

/-- Opcode 0101 (R112). -/
def execReserved0101 (c : Cond) (s : State) : Result := reservedDataProcessing .reserved0101 c s

/-- Opcode 0110 (R112). -/
def execReserved0110 (c : Cond) (s : State) : Result := reservedDataProcessing .reserved0110 c s

/-- Opcode 0111 (R112). -/
def execReserved0111 (c : Cond) (s : State) : Result := reservedDataProcessing .reserved0111 c s

/-- Opcode 1011 (R112). -/
def execReserved1011 (c : Cond) (s : State) : Result := reservedDataProcessing .reserved1011 c s

/-- Opcode 1110 (R112). -/
def execReserved1110 (c : Cond) (s : State) : Result := reservedDataProcessing .reserved1110 c s

/-- Opcode 1111 (R112). -/
def execReserved1111 (c : Cond) (s : State) : Result := reservedDataProcessing .reserved1111 c s

end Sys2Proof.Machine
end

