-- ==== Sys2Proof/Machine/Multiply.lean ====
section
/-! DEFINITION. The Multiply instructions (42_multiply.md). -/

namespace Sys2Proof.Machine

/-- The end of R114 once the result is known: it goes to `rd`, the flags follow R117 when S = 1. All
register reads have happened before. -/
def multiplyEffect (cfg : Config) (sf : Bool) (rd : Reg) (res : Word) (s : State) : State :=
  let s1 := s.write (slotOf rd) res
  let s2 := if sf then s1.write cpsrSlot (multiplyFlags cfg s.cpsr res) else s1
  s2.setCtl .Continue

/-- The product of R114, truncated to 32 bits (R119). -/
def product (rs rm : Reg) (s : State) : Word := s.read (slotOf rm) * s.read (slotOf rs)

/-- MUL (R115): the `rn` field is not read. -/
def execMul (c : Cond) (sf : Bool) (rd rs rm : Reg) (s : State) : Result :=
  whenPassed c s (.next (multiplyEffect Config.hardware sf rd (product rs rm s) s))

/-- MLA (R116). -/
def execMla (c : Cond) (sf : Bool) (rd rn rs rm : Reg) (s : State) : Result :=
  whenPassed c s
    (.next (multiplyEffect Config.hardware sf rd (product rs rm s + s.read (slotOf rn)) s))

end Sys2Proof.Machine
end

