-- ==== Sys2Proof/Machine/Transfer.lean ====
section
/-! DEFINITION. The SingleDataTransfer instructions (43_single_data_transfer.md): the common sequence of
R120 once, then LDR and STR. -/

namespace Sys2Proof.Machine

/-- The transfer of LDR (R125): the word at `ea` goes to `rd`. -/
def loadWord (rd : Reg) (ea : Word) (s : State) : State :=
  s.write (slotOf rd) (s.mem.readWord ea.toNat)

/-- The transfer of STR (R126): the word of `rd`, read now (R124), goes to `ea`. -/
def storeWord (rd : Reg) (ea : Word) (s : State) : State :=
  s.setMem (s.mem.writeWord ea.toNat (s.read (slotOf rd)))

/-- The common sequence of R120 after the condition passed, in the order of R124: the address, the
bounds test (R123), the straddle test (R42), the write-back, the transfer. With the parameter
`SDT_FAULT_SUPPRESSES_WRITEBACK` false the write-back comes before the bounds test (decision D11). -/
def transfer (cfg : Config) (move : Reg → Word → State → State) (pre up : Bool) (rn rd : Reg)
    (off : Offset) (s : State) : Result :=
  let ea := effectiveAddress pre up rn off s
  if inBounds ea then
    if straddles ea.toNat then .refused (.straddlingAccess ea)
    else .next ((move rd ea (baseWrittenBack pre up rn off s)).setCtl .Continue)
  else
    .next ((if cfg.sdtFaultSuppressesWriteback then s
      else baseWrittenBack pre up rn off s).reportAndContinue (.DataAddressOutOfBounds ea))

/-- LDR (R125). -/
def execLdr (c : Cond) (pre up : Bool) (rn rd : Reg) (off : Offset) (s : State) : Result :=
  whenPassed c s (transfer Config.hardware loadWord pre up rn rd off s)

/-- STR (R126). -/
def execStr (c : Cond) (pre up : Bool) (rn rd : Reg) (off : Offset) (s : State) : Result :=
  whenPassed c s (transfer Config.hardware storeWord pre up rn rd off s)

end Sys2Proof.Machine
end

