-- ==== Sys2Proof/Machine/Dispatch.lean ====
section
/-! DEFINITION. Execute (R141): one arm for each instruction. -/

namespace Sys2Proof.Machine

def exec (i : Instr) (s : State) : Host.Outcome State Fault Refusal :=
  match i with
  | .halt => Sys2Proof.Machine.execHalt s
  | .mul c sf rd _ rs rm => Sys2Proof.Machine.execMul c sf rd rs rm s
  | .mla c sf rd rn rs rm => Sys2Proof.Machine.execMla c sf rd rn rs rm s
  | .and c sf rn rd op2 => Sys2Proof.Machine.execAnd c sf rn rd op2 s
  | .eor c sf rn rd op2 => Sys2Proof.Machine.execEor c sf rn rd op2 s
  | .sub c sf rn rd op2 => Sys2Proof.Machine.execSub c sf rn rd op2 s
  | .rsb c sf rn rd op2 => Sys2Proof.Machine.execRsb c sf rn rd op2 s
  | .add c sf rn rd op2 => Sys2Proof.Machine.execAdd c sf rn rd op2 s
  | .tst c sf rn rd op2 => Sys2Proof.Machine.execTst c sf rn rd op2 s
  | .teq c sf rn rd op2 => Sys2Proof.Machine.execTeq c sf rn rd op2 s
  | .cmp c sf rn rd op2 => Sys2Proof.Machine.execCmp c sf rn rd op2 s
  | .orr c sf rn rd op2 => Sys2Proof.Machine.execOrr c sf rn rd op2 s
  | .mov c sf rn rd op2 => Sys2Proof.Machine.execMov c sf rn rd op2 s
  | .reserved0101 c _ _ _ _ => Sys2Proof.Machine.execReserved0101 c s
  | .reserved0110 c _ _ _ _ => Sys2Proof.Machine.execReserved0110 c s
  | .reserved0111 c _ _ _ _ => Sys2Proof.Machine.execReserved0111 c s
  | .reserved1011 c _ _ _ _ => Sys2Proof.Machine.execReserved1011 c s
  | .reserved1110 c _ _ _ _ => Sys2Proof.Machine.execReserved1110 c s
  | .reserved1111 c _ _ _ _ => Sys2Proof.Machine.execReserved1111 c s
  | .ldr c pre up rn rd off => Sys2Proof.Machine.execLdr c pre up rn rd off s
  | .str c pre up rn rd off => Sys2Proof.Machine.execStr c pre up rn rd off s
  | .b c offset => Sys2Proof.Machine.execB c offset s

end Sys2Proof.Machine
end

