-- ==== Sys2Proof/Machine/Pipeline.lean ====
section
/-! DEFINITION. The pipeline controller (45_pipeline_halt.md): the two phases of a cycle, the loading of
an image before a run, the placing of one instruction, and what the host sees after a run. -/

namespace Sys2Proof.Machine

/-- Phase 1 with `ctl = Skip` (R142): the word in `D` is not decoded, only `ctl` changes. -/
def discardWord (s : State) : State := s.setCtl .Continue

/-- Phase 2 (R144): nothing after `Stop` or with `pc` outside memory; refused where the word straddles
the end of memory (R42); else `F` moves to `D`, the word at `pc` to `F`, and `pc` grows by 4. -/
def fetchPhase (s : State) : Result :=
  if s.stopped then .next s
  else if straddles s.pc.toNat then .refused (.straddlingFetch s.pc)
  else .next ((s.setLatches (s.mem.readWord s.pc.toNat) s.f).write pcSlot (s.pc + 4))

/-- Phase 2 after phase 1: no next state when phase 1 has none. -/
def thenFetch : Result → Result
  | .next s => fetchPhase s
  | .fault r => .fault r
  | .refused r => .refused r

/-- One cycle (R140), taken only while the run has not ended; a stopped core keeps its state (R145).
`execute` is phase 1 for a decoded word (R141). -/
def cycle (execute : Instr → State → Result) (s : State) : Result :=
  if s.stopped then .next s
  else
    match s.ctl with
    | .Continue => thenFetch (execute (decode s.d) s)
    | .Skip => fetchPhase (discardWord s)
    | .Stop => .next s

/-- Reset applied to a running or stopped core (R172): the sequence starts again over the memory as it
is, since reset does not write memory. -/
def State.resetAgain (s : State) : State := State.afterReset s.mem

/-- The state a run starts from when the host has loaded an image (R13, R173): none when the image is
longer than memory, which the host refuses before the run (R171, R174). -/
def State.load (image : List Byte) : Option State :=
  if image.length ≤ Config.memSize then some (State.afterReset (Memory.ofImage image)) else none

/-- What the host observes of a run that has ended (R13): the register file, the memory and the
reports. -/
structure RunResult where
  regs : Vector Word 17
  mem : Memory
  reports : List Report
deriving DecidableEq, Repr

/-- The host's view of the core, which exists only while `stopped` is true (R12, R169). -/
def State.result (s : State) : Option RunResult :=
  if s.stopped then some ⟨s.regs, s.mem, s.reports⟩ else none

/-- The `pc` with which the next instruction to run will run: the discard cycle that `Skip` stands for
adds 4 (R148); 8, the value for an instruction at address 0, where that lies too near either end of
memory. -/
def placingPc (s : State) : Nat :=
  let p := if s.ctl = .Skip then s.pc.toNat + 4 else s.pc.toNat
  if 8 ≤ p ∧ p ≤ Config.lastWordAddr then p else 8

/-- The state whose very next cycle runs the instruction word `w` (log entry 4): the word lies in memory
eight bytes below `pc` and in the decode latch, as the pipeline leaves it in straight-line flow (R148),
the controller is at `Continue`, and the fetch latch holds the word after it unless it was already
loaded. -/
def placeWord (s : State) (w : Word) : State :=
  let p := placingPc s
  let m := s.mem.writeWord (p - 8) w
  let f := if s.ctl = .Continue ∧ s.pc.toNat = p then s.f else m.readWord (p - 4)
  (((s.setMem m).setLatches f w).write pcSlot (BitVec.ofNat 32 p)).setCtl .Continue

end Sys2Proof.Machine
end

