-- ==== Sys2Proof/Machine/Step.lean ====
section
/-! DEFINITION. The step of the machine: one cycle of the pipeline controller (R140, decision D2). -/

namespace Sys2Proof.Machine

/-- One cycle (R140); a core whose run has ended keeps its state (R145). -/
def step (s : State) : Host.Outcome State Fault Refusal := cycle exec s

/-- The state with the instruction word placed so that the next step runs it. -/
def State.withFetchWord (s : State) (nbits w : Nat) : State :=
  placeWord s (BitVec.ofNat 32 (w % 2 ^ nbits))

end Sys2Proof.Machine
end

