-- ==== Sys2Proof/Machine/Assembly.lean ====
section
/-! DEFINITION. The source-text conventions the spec keeps because they fix encodings (R5, R82 to R84):
the legalization of an immediate, the offset field of a branch, and the literal-pool load. The
assembler as a program is outside the hardware (R5). -/

namespace Sys2Proof.Machine

/-- `ROL32(v, 2)` (R82). -/
def rotateLeft2 (v : Word) : Word := (v <<< 2) ||| (v >>> 30)

/-- The search of R82 from rotation count `rot` on, with `left` counts still to try. -/
def legalizeFrom : Nat → Nat → Word → Option Operand2
  | 0, _, _ => none
  | left + 1, rot, v =>
    if v.toNat ≤ 255 then some (.imm (Fin.ofNat 16 rot) (v.setWidth 8))
    else legalizeFrom left (rot + 1) (rotateLeft2 v)

/-- The immediate operand of a value (R82): the smallest rotation count that represents it. A value that
no count represents has none here: DESIGN CHOICE (log entry 13), the spec leaves what the assembler then
emits open. -/
def legalizeImmediate (v : Word) : Option Operand2 := legalizeFrom 16 0 v

/-- The offset field of a branch at `current` to `target` (R83): `(target - current - 8) >> 2`. -/
def branchOffsetField (target current : Word) : BitVec 24 :=
  ((target - current - 8).sshiftRight 2).setWidth 24

/-- The load that `ldr rd, =value` becomes for a value that needs a literal (R84): pre-indexed from
slot 15 by `literal - current - 8`, downwards with the magnitude when that is negative. DESIGN CHOICE
(log entry 13): the spec does not say what is emitted for a literal more than 4095 bytes from
`current + 8`, whose offset does not fit the 12-bit field; here the field takes the low 12 bits of the
magnitude, so that load does not reach its literal. -/
def literalLoad (rd : Reg) (literal current : Word) : Instr :=
  if (current + 8).toNat ≤ literal.toNat then
    .ldr .al true true 15 rd (.imm ((literal - current - 8).setWidth 12))
  else .ldr .al true false 15 rd (.imm ((current + 8 - literal).setWidth 12))

/-- The instruction of `ldr rd, =value` (R84): a MOV when the value fits in 8 bits, else the literal
load. -/
def loadImmediate (rd : Reg) (value literal current : Word) : Instr :=
  if value.toNat ≤ 255 then .mov .al false 0 rd (.imm 0 (value.setWidth 8))
  else literalLoad rd literal current

end Sys2Proof.Machine
end

