-- ==== Sys2Proof/Safety.lean ====
section
/-! DEFINITION. The terms claims are stated in: safe steps and runs, the invariant of the machine, what
an instruction leaves unchanged, and the form of the rule of a DataProcessing instruction. -/

namespace Sys2Proof.Machine

/-- The next state of an outcome, if it has one. -/
def nextOf : Result → Option State
  | .next s => some s
  | .fault _ => none
  | .refused _ => none

/-- A step from `s` has a next state: nothing the spec leaves without meaning is met (R9, R159). -/
def SafeStep (s : State) : Prop := ∃ t, step s = .next t

/-- `k` steps from `s` all have a next state. -/
def SafeRun : Nat → State → Prop
  | 0, _ => True
  | k + 1, s => ∃ t, step s = .next t ∧ SafeRun k t

/-- The address a report carries (R155). -/
def reportAddress : Report → Word
  | .DataAddressOutOfBounds ea => ea
  | .BranchTargetOutOfBounds target => target

/-- What every step keeps: memory in canonical form (so inside its 65536 bytes, R34), V and bits 27:0 of
the flag register at 0 (R29, R30), and no report of an address that lies in memory (R156, R157). -/
structure Inv (s : State) : Prop where
  mem_wf : s.mem.wf = true
  low_flags : field s.cpsr 0 29 = 0
  reports_outside : ∀ r ∈ s.reports, inBounds (reportAddress r) = false

/-- The S bit of the instructions that have one (R27): DataProcessing and Multiply. -/
def sBit : Instr → Bool
  | .halt => false
  | .mul _ sf _ _ _ _ => sf
  | .mla _ sf _ _ _ _ => sf
  | .and _ sf _ _ _ => sf
  | .eor _ sf _ _ _ => sf
  | .sub _ sf _ _ _ => sf
  | .rsb _ sf _ _ _ => sf
  | .add _ sf _ _ _ => sf
  | .tst _ sf _ _ _ => sf
  | .teq _ sf _ _ _ => sf
  | .cmp _ sf _ _ _ => sf
  | .orr _ sf _ _ _ => sf
  | .mov _ sf _ _ _ => sf
  | .reserved0101 _ sf _ _ _ => sf
  | .reserved0110 _ sf _ _ _ => sf
  | .reserved0111 _ sf _ _ _ => sf
  | .reserved1011 _ sf _ _ _ => sf
  | .reserved1110 _ sf _ _ _ => sf
  | .reserved1111 _ sf _ _ _ => sf
  | .ldr _ _ _ _ _ _ => false
  | .str _ _ _ _ _ _ => false
  | .b _ _ => false

/-- The slots an instruction may write besides the flag register, by the table of R19. -/
def mayWrite : Instr → List Slot
  | .halt => []
  | .mul _ _ rd _ _ _ => [slotOf rd]
  | .mla _ _ rd _ _ _ => [slotOf rd]
  | .and _ _ _ rd _ => [slotOf rd]
  | .eor _ _ _ rd _ => [slotOf rd]
  | .sub _ _ _ rd _ => [slotOf rd]
  | .rsb _ _ _ rd _ => [slotOf rd]
  | .add _ _ _ rd _ => [slotOf rd]
  | .tst _ _ _ _ _ => []
  | .teq _ _ _ _ _ => []
  | .cmp _ _ _ _ _ => []
  | .orr _ _ _ rd _ => [slotOf rd]
  | .mov _ _ _ rd _ => [slotOf rd]
  | .reserved0101 _ _ _ _ _ => []
  | .reserved0110 _ _ _ _ _ => []
  | .reserved0111 _ _ _ _ _ => []
  | .reserved1011 _ _ _ _ _ => []
  | .reserved1110 _ _ _ _ _ => []
  | .reserved1111 _ _ _ _ _ => []
  | .ldr _ pre _ rn rd _ => if pre then [slotOf rd] else [slotOf rd, slotOf rn]
  | .str _ pre _ rn _ _ => if pre then [] else [slotOf rn]
  | .b _ _ => [pcSlot]

/-- Everything but the register file and the controller state is as before: each byte of memory, both
latches, the reports. -/
def SameOutside (s t : State) : Prop :=
  (∀ x, t.mem.read x = s.mem.read x) ∧ t.f = s.f ∧ t.d = s.d ∧ t.reports = s.reports

/-- The bit that R97 moves into C: bit number `n` of the unshifted register for a left shift by a
non-zero `n`, nothing for any other operand. -/
def leftShiftBit (op2 : Operand2) (s : State) : Option Bool :=
  match op2 with
  | .reg ⟨n, .lsl, rm⟩ => if n = 0 then none else some ((s.read (slotOf rm)).getLsbD n.val)
  | _ => none

/-- A word that belongs to DataProcessing (R56, R57). -/
def IsDataProcessingWord (w : Word) : Prop :=
  w ≠ 0 ∧ field w 26 2 = 0 ∧ ¬(w.getLsbD 25 = false ∧ w.getLsbD 7 = true ∧ w.getLsbD 4 = true)

/-- A word that belongs to Multiply (R56). -/
def IsMultiplyWord (w : Word) : Prop :=
  field w 26 2 = 0 ∧ w.getLsbD 25 = false ∧ w.getLsbD 7 = true ∧ w.getLsbD 4 = true

/-- A canonical word (R64, glossary of R14): every bit the decoder ignores is 0, Branch bits 27:24 are
`1010`, Halt is `00000000`. Bit 4 of a register operand or offset is one of the ignored bits (R66, R67). -/
def CanonicalWord (w : Word) : Prop :=
  w = 0 ∨
  (IsDataProcessingWord w ∧ (w.getLsbD 25 = false → w.getLsbD 4 = false)) ∨
  (field w 22 6 = 0 ∧ field w 4 4 = 9) ∨
  (field w 26 2 = 1 ∧ field w 21 2 = 0 ∧ (w.getLsbD 25 = true → w.getLsbD 4 = false)) ∨
  field w 24 4 = 10

/-- The words with opcode `code` decode to `mk` of the fields of R58. -/
def DataProcessingEncoding (code : BitVec 4)
    (mk : Cond → Bool → Reg → Reg → Operand2 → Instr) : Prop :=
  ∀ w : Word, IsDataProcessingWord w → field w 21 4 = code →
    decode w = mk (Cond.ofBits (field w 28 4)) (w.getLsbD 20) (Reg.ofBits (field w 16 4))
      (Reg.ofBits (field w 12 4)) (Operand2.ofBits (w.getLsbD 25) (field w 0 12))

/-- The effect of a DataProcessing instruction whose condition passed: it completes with outcome
`Continue`; `rd` holds `res` of the operands as they were before (if the opcode writes a result), every
other slot but the flag register is unchanged; with S = 0 the flag register is unchanged; with S = 1 N
and Z come from the result (R99), C from `carry`, else from R97, else it stays, V and bits 27:0 stay;
everything else is unchanged. -/
def DataProcessingResult (mk : Cond → Bool → Reg → Reg → Operand2 → Instr) (writesRd : Bool)
    (res : Word → Word → Word) (carry : Word → Word → Option Bool) : Prop :=
  ∀ (c : Cond) (sf : Bool) (rn rd : Reg) (op2 : Operand2) (s : State),
    conditionPassed c s.flags = true →
    ∃ t, exec (mk c sf rn rd op2) s = .next t ∧ t.ctl = .Continue ∧
      (writesRd = true → t.read (slotOf rd) = res (s.read (slotOf rn)) (operand2Value op2 s)) ∧
      (∀ i, i ≠ cpsrSlot → (writesRd = true → i ≠ slotOf rd) → t.read i = s.read i) ∧
      (sf = false → t.cpsr = s.cpsr) ∧
      (sf = true →
        t.flags.n = (res (s.read (slotOf rn)) (operand2Value op2 s)).getLsbD 31 ∧
        t.flags.z = decide (res (s.read (slotOf rn)) (operand2Value op2 s) = 0) ∧
        t.flags.c = (match carry (s.read (slotOf rn)) (operand2Value op2 s), leftShiftBit op2 s with
          | some b, _ => b
          | none, some b => b
          | none, none => s.flags.c) ∧
        t.flags.v = s.flags.v ∧ field t.cpsr 0 28 = field s.cpsr 0 28) ∧
      SameOutside s t

/-- N and Z after MUL or MLA with S = 1 (R117): set by a negative or a zero result, never cleared; C, V
and bits 27:0 stay. -/
def MultiplyFlagsSetOnly (res : Word) (s t : State) : Prop :=
  t.flags.n = (s.flags.n || res.getLsbD 31) ∧ t.flags.z = (s.flags.z || decide (res = 0)) ∧
    t.flags.c = s.flags.c ∧ t.flags.v = s.flags.v ∧ field t.cpsr 0 28 = field s.cpsr 0 28

/-- Two states that agree on everything but the C flag. -/
structure AgreeButC (s t : State) : Prop where
  slots : ∀ i, i ≠ cpsrSlot → t.read i = s.read i
  bits : ∀ k, k ≠ 29 → t.cpsr.getLsbD k = s.cpsr.getLsbD k
  mem : t.mem = s.mem
  f : t.f = s.f
  d : t.d = s.d
  ctl : t.ctl = s.ctl
  reports : t.reports = s.reports

end Sys2Proof.Machine
end

