-- ==== Sys2Proof/Certificates/Slice0/Obligations.lean ====
section
/-! DEFINITION. The statements about the model, one definition each, with the rules they come from. -/

open Sys2Proof Sys2Proof.Machine

/-! ## The codec -/

/-- A few words of 95_test_vectors.md section 2 decode to the fields that section lists. -/
def Obligations.SampleWordsDecode : Prop :=
  decode 0xE3A00001 = .mov .al false 0 0 (.imm 0 1) ∧
  decode 0xE1B02F81 = .mov .al true 0 2 (.reg ⟨31, .lsl, 1⟩) ∧
  decode 0xE0243291 = .mla .al false 4 3 2 1 ∧
  decode 0xE7910102 = .ldr .al true true 1 0 (.reg ⟨2, .lsl, 2⟩) ∧
  decode 0xE59F0010 = .ldr .al true true 15 0 (.imm 16) ∧
  decode 0x1AFFFFFB = .b .ne 0xFFFFFB ∧
  decode 0x12345678 = .eor .ne true 4 5 (.imm 6 0x78)

/-- R56: the five variants, by the all-zero test, bits 27:26 and the Multiply test, and by no other bit. -/
def Obligations.VariantOfWord : Prop :=
  ∀ w : Word,
    ((decode w).variant = .Halt ↔ w = 0 ∨ field w 26 2 = 3) ∧
    ((decode w).variant = .Multiply ↔ IsMultiplyWord w) ∧
    ((decode w).variant = .DataProcessing ↔ IsDataProcessingWord w) ∧
    ((decode w).variant = .SingleDataTransfer ↔ field w 26 2 = 1) ∧
    ((decode w).variant = .Branch ↔ field w 26 2 = 2)

/-- R55: an instruction is exactly four bytes; that a shorter list of bytes is none, and says so by name, is
the model's choice (log entry 14). -/
def Obligations.FourBytesAreOneInstruction : Prop :=
  ∀ bytes : List Byte,
    (4 ≤ bytes.length → ∃ i, decodeBytes bytes = .ok (i, bytes.drop 4)) ∧
    (bytes.length < 4 → decodeBytes bytes = .error (.truncated bytes.length))

/-- Decoding the encoding of a well-formed instruction gives it back, as a word and as bytes in memory order
with anything after them (R64 with the one exception it names; the fields are those of log entry 5). -/
def Obligations.DecodeEncodeRoundTrip : Prop :=
  ∀ (i : Instr) (rest : List Byte), i.wellFormed = true →
    decode (encode i) = i ∧ decodeBytes (encodeBytes i ++ rest) = .ok (i, rest)

/-- The other direction of R64: encoding what a word decodes to gives the word back exactly when the word is
canonical (the ignored bits as the model reads them, log entry 5). -/
def Obligations.EncodeDecodeExactlyCanonical : Prop :=
  ∀ w : Word, encode (decode w) = w ↔ CanonicalWord w

/-- R78: the canonical encodings, field by field from bit 31 down, and the 12 bits of each form of operand
and offset (R65, R66, R68); which bits are fields and which are written 0 is log entry 5. -/
def Obligations.EncoderLayouts : Prop :=
  (∀ (o : Opcode) (c : Cond) (sf : Bool) (rn rd : Reg) (op2 : Operand2),
    encode (o.instr c sf rn rd op2) =
      c.toBits ++ (0 : BitVec 2) ++ BitVec.ofBool op2.immediateFlag ++ o.toBits ++ BitVec.ofBool sf ++
        Reg.toBits rn ++ Reg.toBits rd ++ op2.toBits) ∧
  (∀ (c : Cond) (sf : Bool) (rd rn rs rm : Reg),
    encode (.mul c sf rd rn rs rm) =
      c.toBits ++ (0 : BitVec 6) ++ (0 : BitVec 1) ++ BitVec.ofBool sf ++ Reg.toBits rd ++
        Reg.toBits rn ++ Reg.toBits rs ++ (9 : BitVec 4) ++ Reg.toBits rm ∧
    encode (.mla c sf rd rn rs rm) =
      c.toBits ++ (0 : BitVec 6) ++ (1 : BitVec 1) ++ BitVec.ofBool sf ++ Reg.toBits rd ++
        Reg.toBits rn ++ Reg.toBits rs ++ (9 : BitVec 4) ++ Reg.toBits rm) ∧
  (∀ (c : Cond) (pre up : Bool) (rn rd : Reg) (off : Offset),
    encode (.ldr c pre up rn rd off) =
      c.toBits ++ (1 : BitVec 2) ++ BitVec.ofBool (off.immediateFlag Config.hardware) ++
        BitVec.ofBool pre ++ BitVec.ofBool up ++ (0 : BitVec 2) ++ (1 : BitVec 1) ++ Reg.toBits rn ++
        Reg.toBits rd ++ off.toBits ∧
    encode (.str c pre up rn rd off) =
      c.toBits ++ (1 : BitVec 2) ++ BitVec.ofBool (off.immediateFlag Config.hardware) ++
        BitVec.ofBool pre ++ BitVec.ofBool up ++ (0 : BitVec 2) ++ (0 : BitVec 1) ++ Reg.toBits rn ++
        Reg.toBits rd ++ off.toBits) ∧
  (∀ (c : Cond) (offset : BitVec 24), encode (.b c offset) = c.toBits ++ (10 : BitVec 4) ++ offset) ∧
  encode .halt = 0 ∧
  (∀ (rot : Fin 16) (imm8 : Byte),
    Operand2.toBits (.imm rot imm8) = BitVec.ofNat 4 rot.val ++ imm8) ∧
  (∀ (n : Fin 32) (k : ShiftKind) (rm : Reg),
    Operand2.toBits (.reg ⟨n, k, rm⟩) =
      BitVec.ofNat 5 n.val ++ k.toBits ++ (0 : BitVec 1) ++ Reg.toBits rm ∧
    Offset.toBits (.reg ⟨n, k, rm⟩) =
      BitVec.ofNat 5 n.val ++ k.toBits ++ (0 : BitVec 1) ++ Reg.toBits rm) ∧
  ∀ bytes : BitVec 12, Offset.toBits (.imm bytes) = bytes

/-- The bits R63 ignores (log entry 5): words of one variant that differ only in ignored bits of the format
decode to the same instruction, and the ignored register fields of MOV, TST, TEQ, CMP and MUL change nothing
of what the instruction does. -/
def Obligations.IgnoredBitsChangeNothing : Prop :=
  (∀ w v : Word, IsMultiplyWord w → w &&& 0xFE3FFF9F = v &&& 0xFE3FFF9F → decode w = decode v) ∧
  (∀ w v : Word, field w 26 2 = 1 → w &&& 0xFF9FFFFF = v &&& 0xFF9FFFFF → decode w = decode v) ∧
  (∀ w v : Word, field w 26 2 = 2 → w &&& 0xFCFFFFFF = v &&& 0xFCFFFFFF → decode w = decode v) ∧
  (∀ w v : Word, field w 26 2 = 3 → w &&& 0x0C000000 = v &&& 0x0C000000 → decode w = decode v) ∧
  (∀ w v : Word, IsDataProcessingWord w → IsDataProcessingWord v → w.getLsbD 25 = false →
    w &&& 0xFFFFFFEF = v &&& 0xFFFFFFEF → decode w = decode v) ∧
  (∀ w v : Word, field w 26 2 = 1 → w.getLsbD 25 = true → w &&& 0xFFFFFFEF = v &&& 0xFFFFFFEF →
    decode w = decode v) ∧
  (∀ (c : Cond) (sf : Bool) (r q p : Reg) (op2 : Operand2) (s : State),
    exec (.mov c sf r p op2) s = exec (.mov c sf q p op2) s ∧
    exec (.tst c sf p r op2) s = exec (.tst c sf p q op2) s ∧
    exec (.teq c sf p r op2) s = exec (.teq c sf p q op2) s ∧
    exec (.cmp c sf p r op2) s = exec (.cmp c sf p q op2) s) ∧
  (∀ (c : Cond) (sf : Bool) (r q rd rs rm : Reg) (s : State),
    exec (.mul c sf rd r rs rm) s = exec (.mul c sf rd q rs rm) s)

/-! ## The condition evaluator -/

/-- R88: the table, for each of the sixteen codes and every value of the flags. -/
def Obligations.ConditionTable : Prop :=
  ∀ (code : BitVec 4) (fl : Flags),
    (conditionPassed (Cond.ofBits code) fl = true ↔
      (code = 0 ∧ fl.z = true) ∨ (code = 1 ∧ fl.z = false) ∨ (code = 10 ∧ fl.n = fl.v) ∨
      (code = 11 ∧ fl.n ≠ fl.v) ∨ (code = 12 ∧ fl.z = false ∧ fl.n = fl.v) ∨
      (code = 13 ∧ (fl.z = true ∨ fl.n ≠ fl.v)) ∨ code = 14)

/-- R90 and R89: any instruction whose condition fails is a no-op with outcome `Continue`: no register,
flag, memory byte, latch or report changes; the nine reserved codes fail in every flag state. -/
def Obligations.FailedConditionIsNoOp : Prop :=
  (∀ (i : Instr) (c : Cond) (s : State), i.cond? = some c → conditionPassed c s.flags = false →
    exec i s = .next { s with ctl := .Continue }) ∧
  (∀ (code : BitVec 4) (fl : Flags), (2 ≤ code.toNat ∧ code.toNat ≤ 9) ∨ code.toNat = 15 →
    conditionPassed (Cond.ofBits code) fl = false)

/-! ## The shift and rotate unit -/

/-- R95: the four shifts for amounts 1 to 31, in unbounded arithmetic. -/
def Obligations.ShifterResults : Prop :=
  ∀ (v : Word) (n : Nat), 1 ≤ n → n ≤ 31 →
    (shiftWord .lsl v n).toNat = v.toNat * 2 ^ n % 2 ^ 32 ∧
    (shiftWord .lsr v n).toNat = v.toNat / 2 ^ n ∧
    shiftWord .asr v n = BitVec.ofInt 32 (v.toInt / 2 ^ n) ∧
    shiftWord .ror v n = (v >>> n) ||| (v <<< (32 - n))

/-- R96: amount 0 passes the value through for every type and touches no flag (the spec's decision D9); with
the parameter `LSL0_TOUCHES_C` set, LSL by 0 with S = 1 moves bit 0 into C. -/
def Obligations.ZeroAmountPassesThrough : Prop :=
  ∀ (kind : ShiftKind) (v : Word) (sf : Bool),
    shiftWord kind v 0 = v ∧ shifterCarry Config.hardware kind v 0 sf = none ∧
    shifterCarry { Config.hardware with lsl0TouchesC := true } .lsl v 0 true = some (v.getLsbD 0)

/-- R65: the immediate operand is the 8-bit value rotated right by twice the rotate count, bit by bit, and
the rotation writes no flag. -/
def Obligations.RotatedImmediate : Prop :=
  ∀ (rot : Fin 16) (imm8 : Byte) (s : State),
    (∀ k, k < 32 → (operand2Value (.imm rot imm8) s).getLsbD k =
      (imm8.setWidth 32).getLsbD ((k + 2 * rot.val) % 32)) ∧
    ∀ (cfg : Config) (sf : Bool), operand2Carry cfg (.imm rot imm8) sf s = none

/-- R97, the spec's decision D23: the shifter writes C exactly for a left-shifted register by 1 to 31 with S
= 1, from bit number `n` of the unshifted value; a transfer never writes C. -/
def Obligations.ShifterCarryIsIndexedBit : Prop :=
  (∀ (op2 : Operand2) (sf : Bool) (s : State),
    operand2Carry Config.hardware op2 sf s = if sf then leftShiftBit op2 s else none) ∧
  (∀ (c : Cond) (pre up : Bool) (rn rd : Reg) (off : Offset) (s t : State),
    exec (.ldr c pre up rn rd off) s = .next t ∨ exec (.str c pre up rn rd off) s = .next t →
    t.flags.c = s.flags.c)

/-! ## DataProcessing -/

/-- R102: AND, its encoding, its result, its flags (C by the spec's decision D23) and its frame. -/
def Obligations.AndRule : Prop :=
  DataProcessingEncoding 0 .and ∧
  DataProcessingResult .and true (fun a b => a &&& b) (fun _ _ => none)

/-- R103: EOR, its encoding, its result, its flags (C by the spec's decision D23) and its frame. -/
def Obligations.EorRule : Prop :=
  DataProcessingEncoding 1 .eor ∧
  DataProcessingResult .eor true (fun a b => a ^^^ b) (fun _ _ => none)

/-- R104: SUB, its encoding, its result, its flags (C = no borrow) and its frame. -/
def Obligations.SubRule : Prop :=
  DataProcessingEncoding 2 .sub ∧
  DataProcessingResult .sub true (fun a b => BitVec.ofInt 32 ((a.toNat : Int) - b.toNat))
    (fun a b => some (decide (a.toNat ≥ b.toNat)))

/-- R105: RSB, its encoding, its result, its flags (C = no borrow) and its frame. -/
def Obligations.RsbRule : Prop :=
  DataProcessingEncoding 3 .rsb ∧
  DataProcessingResult .rsb true (fun a b => BitVec.ofInt 32 ((b.toNat : Int) - a.toNat))
    (fun a b => some (decide (b.toNat ≥ a.toNat)))

/-- R106: ADD, its encoding, its result, its flags (C = unsigned overflow) and its frame. -/
def Obligations.AddRule : Prop :=
  DataProcessingEncoding 4 .add ∧
  DataProcessingResult .add true (fun a b => BitVec.ofNat 32 (a.toNat + b.toNat))
    (fun a b => some (decide (a.toNat + b.toNat ≥ 2 ^ 32)))

/-- R107: TST, its encoding, its flags (C by the spec's decision D23) and its frame; no general register is
written. -/
def Obligations.TstRule : Prop :=
  DataProcessingEncoding 8 .tst ∧
  DataProcessingResult .tst false (fun a b => a &&& b) (fun _ _ => none)

/-- R108: TEQ, its encoding, its flags (C by the spec's decision D23) and its frame; no general register is
written. -/
def Obligations.TeqRule : Prop :=
  DataProcessingEncoding 9 .teq ∧
  DataProcessingResult .teq false (fun a b => a ^^^ b) (fun _ _ => none)

/-- R109: CMP, its encoding, its flags (C = no borrow) and its frame; no general register is written. -/
def Obligations.CmpRule : Prop :=
  DataProcessingEncoding 10 .cmp ∧
  DataProcessingResult .cmp false (fun a b => BitVec.ofInt 32 ((a.toNat : Int) - b.toNat))
    (fun a b => some (decide (a.toNat ≥ b.toNat)))

/-- R110: ORR, its encoding, its result, its flags (C by the spec's decision D23) and its frame. -/
def Obligations.OrrRule : Prop :=
  DataProcessingEncoding 12 .orr ∧
  DataProcessingResult .orr true (fun a b => a ||| b) (fun _ _ => none)

/-- R111: MOV, its encoding, its result, its flags (C by the spec's decision D23) and its frame; `rn` is
ignored. -/
def Obligations.MovRule : Prop :=
  DataProcessingEncoding 13 .mov ∧
  DataProcessingResult .mov true (fun _ b => b) (fun _ _ => none)

/-- R72 and R112, the spec's decision D7: the six reserved opcodes. A word with one of them is a no-op when
its condition fails and is refused, by name, when it passes. -/
def Obligations.ReservedOpcodes : Prop :=
  ∀ p ∈ [((5 : BitVec 4), Opcode.reserved0101, Instr.reserved0101),
      (6, Opcode.reserved0110, Instr.reserved0110), (7, Opcode.reserved0111, Instr.reserved0111),
      (11, Opcode.reserved1011, Instr.reserved1011), (14, Opcode.reserved1110, Instr.reserved1110),
      (15, Opcode.reserved1111, Instr.reserved1111)],
    DataProcessingEncoding p.1 p.2.2 ∧
    ∀ (c : Cond) (sf : Bool) (rn rd : Reg) (op2 : Operand2) (s : State),
      (conditionPassed c s.flags = false →
        exec (p.2.2 c sf rn rd op2) s = .next { s with ctl := .Continue }) ∧
      (conditionPassed c s.flags = true →
        exec (p.2.2 c sf rn rd op2) s = .refused (.reservedOpcode p.2.1))

/-- R27 and R98: the flag register changes only when an instruction executes with its S bit set, and only
DataProcessing and Multiply have one; TST, TEQ and CMP with S = 0 do nothing at all. -/
def Obligations.FlagsChangeOnlyWithS : Prop :=
  (∀ (i : Instr) (s t : State), exec i s = .next t → t.cpsr ≠ s.cpsr →
    sBit i = true ∧ (i.variant = .DataProcessing ∨ i.variant = .Multiply) ∧
    ∃ c, i.cond? = some c ∧ conditionPassed c s.flags = true) ∧
  (∀ (c : Cond) (rn rd : Reg) (op2 : Operand2) (s : State),
    exec (.tst c false rn rd op2) s = .next { s with ctl := .Continue } ∧
    exec (.teq c false rn rd op2) s = .next { s with ctl := .Continue } ∧
    exec (.cmp c false rn rd op2) s = .next { s with ctl := .Continue })

/-- The write column of R19, over all instructions: beside the flag register an instruction writes only its
destination, a post-indexed transfer its base, and B the `pc`. -/
def Obligations.OnlyNamedSlotsWritten : Prop :=
  ∀ (i : Instr) (s t : State), exec i s = .next t →
    ∀ j, j ∉ mayWrite i → j ≠ cpsrSlot → t.read j = s.read j

/-! ## Multiply -/

/-- R115 inside R114: MUL, its encoding, its truncated product, its flags (the spec's decision D10) and its
frame. -/
def Obligations.MulRule : Prop :=
  (∀ w : Word, IsMultiplyWord w → w.getLsbD 21 = false →
    decode w = .mul (Cond.ofBits (field w 28 4)) (w.getLsbD 20) (Reg.ofBits (field w 16 4))
      (Reg.ofBits (field w 12 4)) (Reg.ofBits (field w 8 4)) (Reg.ofBits (field w 0 4))) ∧
  ∀ (c : Cond) (sf : Bool) (rd rn rs rm : Reg) (s : State), conditionPassed c s.flags = true →
    ∃ t, exec (.mul c sf rd rn rs rm) s = .next t ∧ t.ctl = .Continue ∧
      t.read (slotOf rd) =
        BitVec.ofNat 32 ((s.read (slotOf rm)).toNat * (s.read (slotOf rs)).toNat) ∧
      (∀ i, i ≠ cpsrSlot → i ≠ slotOf rd → t.read i = s.read i) ∧
      (sf = false → t.cpsr = s.cpsr) ∧
      (sf = true → MultiplyFlagsSetOnly (t.read (slotOf rd)) s t) ∧ SameOutside s t

/-- R116 inside R114: MLA, its encoding, its truncated sum, its flags (the spec's decision D10) and its
frame. -/
def Obligations.MlaRule : Prop :=
  (∀ w : Word, IsMultiplyWord w → w.getLsbD 21 = true →
    decode w = .mla (Cond.ofBits (field w 28 4)) (w.getLsbD 20) (Reg.ofBits (field w 16 4))
      (Reg.ofBits (field w 12 4)) (Reg.ofBits (field w 8 4)) (Reg.ofBits (field w 0 4))) ∧
  ∀ (c : Cond) (sf : Bool) (rd rn rs rm : Reg) (s : State), conditionPassed c s.flags = true →
    ∃ t, exec (.mla c sf rd rn rs rm) s = .next t ∧ t.ctl = .Continue ∧
      t.read (slotOf rd) =
        BitVec.ofNat 32 ((s.read (slotOf rm)).toNat * (s.read (slotOf rs)).toNat +
          (s.read (slotOf rn)).toNat) ∧
      (∀ i, i ≠ cpsrSlot → i ≠ slotOf rd → t.read i = s.read i) ∧
      (sf = false → t.cpsr = s.cpsr) ∧
      (sf = true → MultiplyFlagsSetOnly (t.read (slotOf rd)) s t) ∧ SameOutside s t

/-- R117, the spec's decision D10: the flag update of MUL and MLA by the sign of the result, and the
alternative reading that the parameter `MUL_S_CLEARS_FLAGS` names; C, V and bits 27:0 stay in both. -/
def Obligations.MultiplyFlagTable : Prop :=
  ∀ cpsr res : Word,
    (res.getLsbD 31 = true →
      flagsOf (multiplyFlags Config.hardware cpsr res) = { flagsOf cpsr with n := true }) ∧
    (res = 0 → flagsOf (multiplyFlags Config.hardware cpsr res) = { flagsOf cpsr with z := true }) ∧
    (res.getLsbD 31 = false → res ≠ 0 → multiplyFlags Config.hardware cpsr res = cpsr) ∧
    flagsOf (multiplyFlags { Config.hardware with mulSClearsFlags := true } cpsr res) =
      { flagsOf cpsr with n := res.getLsbD 31, z := decide (res = 0) } ∧
    ∀ cfg : Config, field (multiplyFlags cfg cpsr res) 0 28 = field cpsr 0 28

/-! ## SingleDataTransfer -/

/-- R121 and R122: the offset (raw and unscaled, or a shifted register), the four addressing modes, and the
write-back of the base that only post-indexing makes (decisions D6 and D19 of the spec); the parameter
`SDT_I_SET_MEANS_REGISTER` swaps the two forms. -/
def Obligations.TransferAddressing : Prop :=
  (∀ (bytes : BitVec 12) (s : State), (offsetValue (.imm bytes) s).toNat = bytes.toNat) ∧
  (∀ (n : Fin 32) (k : ShiftKind) (rm : Reg) (s : State),
    offsetValue (.reg ⟨n, k, rm⟩) s = shiftWord k (s.read (slotOf rm)) n.val) ∧
  (∀ (i : Bool) (v : BitVec 12),
    Offset.ofBits Config.hardware i v = (if i then .reg (ShiftedReg.ofBits v) else .imm v) ∧
    Offset.ofBits { Config.hardware with sdtISetMeansRegister := false } i v =
      Offset.ofBits Config.hardware (!i) v) ∧
  (∀ (rn : Reg) (off : Offset) (s : State),
    effectiveAddress true true rn off s = s.read (slotOf rn) + offsetValue off s ∧
    effectiveAddress true false rn off s = s.read (slotOf rn) - offsetValue off s ∧
    effectiveAddress false true rn off s = s.read (slotOf rn) ∧
    effectiveAddress false false rn off s = s.read (slotOf rn) ∧
    baseWrittenBack true true rn off s = s ∧ baseWrittenBack true false rn off s = s ∧
    (baseWrittenBack false true rn off s).read (slotOf rn) =
      s.read (slotOf rn) + offsetValue off s ∧
    (baseWrittenBack false false rn off s).read (slotOf rn) =
      s.read (slotOf rn) - offsetValue off s)

/-- R125 inside R120: LDR, its encoding; inside memory it loads the little-endian word at the effective
address, writes its base back when post-indexed (the loaded word wins in the base itself) and changes
nothing else; outside memory it only reports; at 65533 to 65535 it is refused (decisions D11, D12, D13 and
D17 of the spec). -/
def Obligations.LdrRule : Prop :=
  (∀ w : Word, field w 26 2 = 1 → w.getLsbD 20 = true →
    decode w = .ldr (Cond.ofBits (field w 28 4)) (w.getLsbD 24) (w.getLsbD 23)
      (Reg.ofBits (field w 16 4)) (Reg.ofBits (field w 12 4))
      (if w.getLsbD 25 then .reg (ShiftedReg.ofBits (field w 0 12)) else .imm (field w 0 12))) ∧
  ∀ (c : Cond) (pre up : Bool) (rn rd : Reg) (off : Offset) (s : State),
    conditionPassed c s.flags = true →
    ((effectiveAddress pre up rn off s).toNat ≤ 65532 →
      ∃ t, exec (.ldr c pre up rn rd off) s = .next t ∧ t.ctl = .Continue ∧
        t.read (slotOf rd) = s.mem.readWord (effectiveAddress pre up rn off s).toNat ∧
        (pre = false → rn ≠ rd → t.read (slotOf rn) = indexedBase up rn off s) ∧
        (∀ j, j ≠ slotOf rd → (pre = false → j ≠ slotOf rn) → t.read j = s.read j) ∧
        SameOutside s t) ∧
    (65532 < (effectiveAddress pre up rn off s).toNat →
      (effectiveAddress pre up rn off s).toNat < 65536 →
      exec (.ldr c pre up rn rd off) s =
        .refused (.straddlingAccess (effectiveAddress pre up rn off s))) ∧
    (65536 ≤ (effectiveAddress pre up rn off s).toNat →
      exec (.ldr c pre up rn rd off) s = .next { s with
        ctl := .Continue
        reports := s.reports ++ [.DataAddressOutOfBounds (effectiveAddress pre up rn off s)] })

/-- R126 inside R120: STR, its encoding; inside memory it stores the word of `rd`, little-endian, at the
effective address and changes no other byte, writes its base back when post-indexed (and stores the updated
base when that is `rd`) and changes nothing else; outside memory it only reports; at 65533 to 65535 it is
refused (decisions D11, D12, D13 and D17 of the spec). -/
def Obligations.StrRule : Prop :=
  (∀ w : Word, field w 26 2 = 1 → w.getLsbD 20 = false →
    decode w = .str (Cond.ofBits (field w 28 4)) (w.getLsbD 24) (w.getLsbD 23)
      (Reg.ofBits (field w 16 4)) (Reg.ofBits (field w 12 4))
      (if w.getLsbD 25 then .reg (ShiftedReg.ofBits (field w 0 12)) else .imm (field w 0 12))) ∧
  ∀ (c : Cond) (pre up : Bool) (rn rd : Reg) (off : Offset) (s : State),
    conditionPassed c s.flags = true →
    ((effectiveAddress pre up rn off s).toNat ≤ 65532 →
      ∃ t, exec (.str c pre up rn rd off) s = .next t ∧ t.ctl = .Continue ∧
        (s.mem.wf = true → ∀ k, k < 4 →
          (t.mem.read ((effectiveAddress pre up rn off s).toNat + k)).toNat =
            (if pre = false ∧ rn = rd then indexedBase up rn off s
              else s.read (slotOf rd)).toNat / 256 ^ k % 256) ∧
        (∀ x, x < (effectiveAddress pre up rn off s).toNat ∨
          (effectiveAddress pre up rn off s).toNat + 4 ≤ x → t.mem.read x = s.mem.read x) ∧
        (pre = false → t.read (slotOf rn) = indexedBase up rn off s) ∧
        (∀ j, (pre = false → j ≠ slotOf rn) → t.read j = s.read j) ∧
        t.f = s.f ∧ t.d = s.d ∧ t.reports = s.reports) ∧
    (65532 < (effectiveAddress pre up rn off s).toNat →
      (effectiveAddress pre up rn off s).toNat < 65536 →
      exec (.str c pre up rn rd off) s =
        .refused (.straddlingAccess (effectiveAddress pre up rn off s))) ∧
    (65536 ≤ (effectiveAddress pre up rn off s).toNat →
      exec (.str c pre up rn rd off) s = .next { s with
        ctl := .Continue
        reports := s.reports ++ [.DataAddressOutOfBounds (effectiveAddress pre up rn off s)] })

/-- R123 and R156, the spec's decision D11: an out-of-bounds LDR or STR only reports its effective address;
for the post-indexed forms that address is the base itself; with the parameter
`SDT_FAULT_SUPPRESSES_WRITEBACK` false the post-index write-back is made nevertheless. -/
def Obligations.OutOfBoundsTransferOnlyReports : Prop :=
  (∀ (c : Cond) (pre up : Bool) (rn rd : Reg) (off : Offset) (s : State),
    conditionPassed c s.flags = true → 65536 ≤ (effectiveAddress pre up rn off s).toNat →
    ∀ i ∈ [Instr.ldr c pre up rn rd off, Instr.str c pre up rn rd off],
      exec i s = .next { s with
        ctl := .Continue
        reports := s.reports ++
          [.DataAddressOutOfBounds
            (if pre then indexedBase up rn off s else s.read (slotOf rn))] }) ∧
  (∀ (move : Reg → Word → State → State) (up : Bool) (rn rd : Reg) (off : Offset) (s : State),
    65536 ≤ (s.read (slotOf rn)).toNat →
    transfer { Config.hardware with sdtFaultSuppressesWriteback := false } move false up rn rd off s =
      .next ((s.write (slotOf rn) (indexedBase up rn off s)).reportAndContinue
        (.DataAddressOutOfBounds (s.read (slotOf rn)))))

/-- R128, the spec's decision D12: base and data register the same. Pre-indexed, a load overwrites the base
and a store stores it; post-indexed, the loaded word remains, and the store stores the updated base. -/
def Obligations.BaseEqualsDataRegister : Prop :=
  ∀ (c : Cond) (up : Bool) (r : Reg) (off : Offset) (s : State),
    conditionPassed c s.flags = true → s.mem.wf = true →
    ((effectiveAddress true up r off s).toNat ≤ 65532 →
      (∃ t, exec (.ldr c true up r r off) s = .next t ∧
        t.read (slotOf r) = s.mem.readWord (effectiveAddress true up r off s).toNat) ∧
      (∃ t, exec (.str c true up r r off) s = .next t ∧ t.read (slotOf r) = s.read (slotOf r) ∧
        t.mem.readWord (effectiveAddress true up r off s).toNat = s.read (slotOf r))) ∧
    ((s.read (slotOf r)).toNat ≤ 65532 →
      (∃ t, exec (.ldr c false up r r off) s = .next t ∧
        t.read (slotOf r) = s.mem.readWord (s.read (slotOf r)).toNat) ∧
      (∃ t, exec (.str c false up r r off) s = .next t ∧
        t.read (slotOf r) = indexedBase up r off s ∧
        t.mem.readWord (s.read (slotOf r)).toNat = indexedBase up r off s))

/-- R36 and R37: word accesses are little-endian; a store changes its four bytes and no other, and reads
back. -/
def Obligations.LittleEndianWords : Prop :=
  ∀ (m : Memory) (a : Nat), a ≤ 65532 →
    (m.readWord a).toNat = (m.read a).toNat + 256 * (m.read (a + 1)).toNat +
      65536 * (m.read (a + 2)).toNat + 16777216 * (m.read (a + 3)).toNat ∧
    ∀ v : Word,
      (m.wf = true → ∀ k, k < 4 →
        ((m.writeWord a v).read (a + k)).toNat = v.toNat / 256 ^ k % 256) ∧
      (∀ x, x < a ∨ a + 4 ≤ x → (m.writeWord a v).read x = m.read x) ∧
      (m.wf = true → (m.writeWord a v).wf = true ∧ (m.writeWord a v).readWord a = v)

/-- A program may rely on this of R50: a load after a store to the same address returns the stored word,
whatever the forms of the two transfers. Which word a post-indexed store with `rd = rn` stores, the moved
base, does not follow from R50: it is R124 and R128 by the spec's decision D12, an effect the model takes
where R128 lets a model refuse (log entry 12). -/
def Obligations.LoadAfterStoreReturnsWord : Prop :=
  ∀ (c c' : Cond) (pre pre' up up' : Bool) (rn rd rn' rd' : Reg) (off off' : Offset) (s t u : State),
    s.mem.wf = true → conditionPassed c s.flags = true →
    (effectiveAddress pre up rn off s).toNat ≤ 65532 →
    exec (.str c pre up rn rd off) s = .next t → conditionPassed c' t.flags = true →
    effectiveAddress pre' up' rn' off' t = effectiveAddress pre up rn off s →
    exec (.ldr c' pre' up' rn' rd' off') t = .next u →
    u.read (slotOf rd') =
      if pre = false ∧ rn = rd then indexedBase up rn off s else s.read (slotOf rd)

/-! ## Branch -/

/-- R69: the displacement is four times the signed field, a multiple of 4. -/
def Obligations.BranchDisplacement : Prop :=
  ∀ offset : BitVec 24,
    (branchDelta offset).toInt = 4 * offset.toInt ∧ (branchDelta offset).toNat % 4 = 0 ∧
    -2 ^ 25 ≤ (branchDelta offset).toInt ∧ (branchDelta offset).toInt ≤ 2 ^ 25 - 4

/-- R132: B, its encoding; taken it writes `pc` with the target and answers `Skip`; with a target out of
bounds it only reports; with a failing condition it does nothing. No other register is written, so no return
address is. -/
def Obligations.BranchRule : Prop :=
  (∀ w : Word, field w 26 2 = 2 → decode w = .b (Cond.ofBits (field w 28 4)) (field w 0 24)) ∧
  ∀ (c : Cond) (offset : BitVec 24) (s : State),
    (conditionPassed c s.flags = false →
      exec (.b c offset) s = .next { s with ctl := .Continue }) ∧
    (conditionPassed c s.flags = true → (s.pc + branchDelta offset).toNat < 65536 →
      ∃ t, exec (.b c offset) s = .next t ∧ t.ctl = .Skip ∧ t.pc = s.pc + branchDelta offset ∧
        (∀ j, j ≠ pcSlot → t.read j = s.read j) ∧ SameOutside s t) ∧
    (conditionPassed c s.flags = true → 65536 ≤ (s.pc + branchDelta offset).toNat →
      exec (.b c offset) s = .next { s with
        ctl := .Continue
        reports := s.reports ++ [.BranchTargetOutOfBounds (s.pc + branchDelta offset)] })

/-- The modular bounds test of R134 accepts exactly the targets whose mathematical value lies in memory, for
every `pc` with which an instruction can execute. -/
def Obligations.BranchTestIsExact : Prop :=
  ∀ (offset : BitVec 24) (s : State), s.pc.toNat < 65536 →
    (inBounds (branchTarget offset s) = true ↔
      0 ≤ (s.pc.toNat : Int) + 4 * offset.toInt ∧ (s.pc.toNat : Int) + 4 * offset.toInt < 65536) ∧
    (inBounds (branchTarget offset s) = true →
      ((branchTarget offset s).toNat : Int) = (s.pc.toNat : Int) + 4 * offset.toInt)

/-! ## The pipeline controller -/

/-- R140, the spec's decision D2: one step is one cycle. The instruction that the decode latch decodes to is
executed, then phase 2 follows; a step has no next state when phase 1 has none; at `Skip` the word is not
executed; a step of a core whose run has ended changes nothing (log entry 6). -/
def Obligations.StepRunsDecodedInstruction : Prop :=
  ∀ s : State,
    (∀ i, s.stopped = false → s.ctl = .Continue → decode s.d = i →
      (∀ t, exec i s = .next t → step s = fetchPhase t) ∧
      (∀ r, exec i s = .refused r → step s = .refused r)) ∧
    (s.stopped = false → s.ctl = .Skip → step s = fetchPhase { s with ctl := .Continue }) ∧
    (s.stopped = true → step s = .next s)

/-- R144, decisions D13 and D14 of the spec: phase 2. After `Stop` and with `pc` outside memory nothing
happens; at 65533 to 65535 it is refused; else `D` receives the old `F`, `F` the word at `pc`, and `pc`
grows by 4. -/
def Obligations.FetchPhaseRule : Prop :=
  ∀ s : State,
    (s.ctl = .Stop ∨ 65536 ≤ s.pc.toNat → fetchPhase s = .next s) ∧
    (s.ctl ≠ .Stop → 65532 < s.pc.toNat → s.pc.toNat < 65536 →
      fetchPhase s = .refused (.straddlingFetch s.pc)) ∧
    (s.ctl ≠ .Stop → s.pc.toNat ≤ 65532 →
      ∃ t, fetchPhase s = .next t ∧ t.d = s.f ∧ t.f = s.mem.readWord s.pc.toNat ∧
        t.pc.toNat = s.pc.toNat + 4 ∧ (∀ j, j ≠ pcSlot → t.read j = s.read j) ∧
        (∀ x, t.mem.read x = s.mem.read x) ∧ t.ctl = s.ctl ∧ t.reports = s.reports)

/-- R142: at `Skip` the word in `D` has no effect of any kind, whatever word it is, and the cycle ends at
`Continue` with the latches advanced. -/
def Obligations.SkipDiscardsAnyWord : Prop :=
  ∀ s : State, s.ctl = .Skip → s.pc.toNat < 65536 →
    (∀ w : Word, step { s with d := w } = step s) ∧
    (s.pc.toNat ≤ 65532 →
      ∃ t, step s = .next t ∧ t.ctl = .Continue ∧ t.d = s.f ∧ t.f = s.mem.readWord s.pc.toNat ∧
        t.pc = s.pc + 4 ∧ (∀ j, j ≠ pcSlot → t.read j = s.read j) ∧
        (∀ x, t.mem.read x = s.mem.read x) ∧ t.reports = s.reports)

/-- R143: only a taken branch gives `Skip`, only Halt gives `Stop`, everything else that executes gives
`Continue`. -/
def Obligations.OutcomeOfExecute : Prop :=
  ∀ (i : Instr) (s t : State), exec i s = .next t →
    (t.ctl = .Stop ↔ i = .halt) ∧
    (t.ctl = .Skip ↔ ∃ c offset, i = .b c offset ∧ conditionPassed c s.flags = true ∧
      (s.pc + branchDelta offset).toNat < 65536)

/-- R146 and R147, the spec's decision D20: Halt is the all-zero word and every word with bits 27:26 = 11;
in every flag state it stops the core, changes nothing else, and no fetch follows. -/
def Obligations.HaltRule : Prop :=
  encode .halt = 0 ∧ (∀ w : Word, decode w = .halt ↔ w = 0 ∨ field w 26 2 = 3) ∧
  ∀ s : State, exec .halt s = .next { s with ctl := .Stop } ∧
    (s.ctl = .Continue → s.pc.toNat < 65536 → decode s.d = .halt →
      step s = .next { s with ctl := .Stop })

/-- R145, the spec's decision D18: the run has ended exactly when the controller is at `Stop` or `pc` has
left memory, and then no number of steps changes the state (log entry 6). -/
def Obligations.StoppedCoreStays : Prop :=
  ∀ s : State, (s.stopped = true ↔ s.ctl = .Stop ∨ 65536 ≤ s.pc.toNat) ∧
    (s.stopped = true → ∀ k, Sys2Proof.core.run k s = .next s)

/-- The course of R149: after a taken branch to `T` the stale word is discarded, and two cycles later the
word that memory held at `T` is in the decode latch with `pc = T + 8`. -/
def Obligations.TakenBranchCourse : Prop :=
  ∀ (c : Cond) (offset : BitVec 24) (s : State),
    s.ctl = .Continue → s.pc.toNat < 65536 → decode s.d = .b c offset →
    conditionPassed c s.flags = true → (s.pc + branchDelta offset).toNat ≤ 65524 →
    ∃ s1 s2, step s = .next s1 ∧ step s1 = .next s2 ∧
      s1.ctl = .Skip ∧ s1.d = s.f ∧ s1.f = s.mem.readWord (s.pc + branchDelta offset).toNat ∧
      s1.pc = s.pc + branchDelta offset + 4 ∧
      s2.ctl = .Continue ∧ s2.d = s.mem.readWord (s.pc + branchDelta offset).toNat ∧
      s2.f = s.mem.readWord ((s.pc + branchDelta offset).toNat + 4) ∧
      s2.pc = s.pc + branchDelta offset + 8 ∧
      (∀ j, j ≠ pcSlot → s2.read j = s.read j) ∧ (∀ x, s2.mem.read x = s.mem.read x) ∧
      s2.reports = s.reports

/-- The table of R177 (and R148 for an instruction that leaves `pc` alone): after an instruction with
outcome `Continue` that leaves `P` in `pc`, the word already in `F` is executed next, with `pc = P + 4`, and
then the word that memory held at `P`; with `P` outside memory the run ends at once, and with `P` at 65533
to 65535 the fetch is refused. -/
def Obligations.PcWriteHasOneDelaySlot : Prop :=
  ∀ s t : State, s.stopped = false → s.ctl = .Continue → exec (decode s.d) s = .next t →
    t.ctl = .Continue →
    (65536 ≤ t.pc.toNat → step s = .next t ∧ t.stopped = true) ∧
    (65532 < t.pc.toNat → t.pc.toNat < 65536 → step s = .refused (.straddlingFetch t.pc)) ∧
    (t.pc.toNat ≤ 65532 →
      ∃ u, step s = .next u ∧ u.ctl = .Continue ∧ u.d = s.f ∧
        u.f = t.mem.readWord t.pc.toNat ∧ u.pc = t.pc + 4 ∧
        (∀ j, j ≠ pcSlot → u.read j = t.read j) ∧ (∀ x, u.mem.read x = t.mem.read x) ∧
        u.reports = t.reports ∧
        (t.pc.toNat ≤ 65528 →
          ∀ v, exec (decode s.f) u = .next v → v.ctl = .Continue → v.pc = u.pc →
            ∃ w, step u = .next w ∧ w.ctl = .Continue ∧ w.d = t.mem.readWord t.pc.toNat ∧
              w.f = v.mem.readWord (t.pc.toNat + 4) ∧ w.pc = t.pc + 8))

/-- The hazard of R178 and R53: a store is not seen by the word already in `F`, which executes next, and is
seen by the fetch of the same cycle. That fetch is at `pc`, or at the moved base when the store is
post-indexed on slot 15 and so writes `pc` (R127, R177, the spec's decisions D12 for the value written and
D14 for a fetch at any alignment); a fetch address outside memory or at 65533 to 65535 is the case of
PcWriteHasOneDelaySlot. The word a post-indexed store with `rd =
rn` stores, the moved base, is R124 and R128 by the spec's decision D12; the model takes both effects where
the spec lets a model refuse (log entry 12). -/
def Obligations.StoreSeenByLaterFetchOnly : Prop :=
  ∀ (c : Cond) (pre up : Bool) (rn rd : Reg) (off : Offset) (s : State) (p : Word),
    s.ctl = .Continue → s.pc.toNat < 65536 → decode s.d = .str c pre up rn rd off →
    conditionPassed c s.flags = true → (effectiveAddress pre up rn off s).toNat ≤ 65532 →
    p = (if pre = false ∧ slotOf rn = pcSlot then indexedBase up rn off s else s.pc) →
    p.toNat ≤ 65532 → s.mem.wf = true →
    ∃ u, step s = .next u ∧ u.d = s.f ∧ u.f = u.mem.readWord p.toNat ∧ u.pc = p + 4 ∧
      u.mem.readWord (effectiveAddress pre up rn off s).toNat =
        (if pre = false ∧ rn = rd then indexedBase up rn off s else s.read (slotOf rd)) ∧
      (effectiveAddress pre up rn off s = p →
        u.f = if pre = false ∧ rn = rd then indexedBase up rn off s else s.read (slotOf rd))

/-- The top of memory (R150): after a taken branch to 65528 or 65532 the run ends before the target
executes, without a report. -/
def Obligations.BranchToTopEndsRun : Prop :=
  ∀ (c : Cond) (offset : BitVec 24) (s : State),
    s.ctl = .Continue → s.pc.toNat < 65536 → decode s.d = .b c offset →
    conditionPassed c s.flags = true →
    ((s.pc + branchDelta offset).toNat = 65532 →
      ∃ s1, step s = .next s1 ∧ s1.stopped = true ∧ s1.ctl = .Skip ∧ s1.reports = s.reports) ∧
    ((s.pc + branchDelta offset).toNat = 65528 →
      ∃ s1 s2, step s = .next s1 ∧ step s1 = .next s2 ∧ s1.stopped = false ∧ s2.stopped = true ∧
        s2.ctl = .Continue ∧ s2.reports = s.reports)

/-! ## Whole-machine rules -/

/-- Every step keeps the invariant: memory stays in canonical form, V and bits 27:0 of the flag register
stay 0, every report is of an address outside memory. -/
def Obligations.StepKeepsInvariant : Prop :=
  ∀ s t : State, Inv s → step s = .next t → Inv t

/-- The invariant holds right after reset, with nothing placed and with any image that fits, and again after
a reset of any state that meets it. -/
def Obligations.InvariantAtReset : Prop :=
  Inv State.reset ∧ (∀ (image : List Byte) (s : State), State.load image = some s → Inv s) ∧
  (∀ s : State, Inv s → Inv s.resetAgain)

/-- R30 with R29: no step writes V or bits 27:0 of the flag register, whatever their values; they are 0
after reset. -/
def Obligations.LowFlagBitsNeverWritten : Prop :=
  (∀ s t : State, step s = .next t → field t.cpsr 0 29 = field s.cpsr 0 29) ∧
  ∀ m : Memory, (State.afterReset m).cpsr = 0

/-- R28: nothing reads C. Two states that differ only in C step alike, to states that differ at most in C,
or are refused alike. -/
def Obligations.CarryIsNeverRead : Prop :=
  ∀ s s' : State, AgreeButC s s' →
    (∀ t, step s = .next t → ∃ t', step s' = .next t' ∧ AgreeButC t t') ∧
    (∀ r, step s = .refused r → step s' = .refused r)

/-- R155 with R160: the reports only grow, by at most one a step, of `DataAddressOutOfBounds` by LDR or STR
and of `BranchTargetOutOfBounds` by B, and an instruction that reports leaves every register, the flags and
memory alone. -/
def Obligations.ReportsAreAppended : Prop :=
  (∀ s t : State, step s = .next t →
    t.reports = s.reports ∨ ∃ r, t.reports = s.reports ++ [r] ∧ t.ctl = .Continue) ∧
  (∀ (i : Instr) (s t : State), exec i s = .next t → t.reports ≠ s.reports →
    t = { s with ctl := .Continue, reports := t.reports } ∧
    ((∃ ea, t.reports = s.reports ++ [.DataAddressOutOfBounds ea] ∧
        i.variant = .SingleDataTransfer) ∨
      (∃ target, t.reports = s.reports ++ [.BranchTargetOutOfBounds target] ∧
        i.variant = .Branch)))

/-- R159, its last part: a step is refused in exactly these cases: a DataProcessing word with a reserved
opcode whose condition passes (the spec's decision D7), a transfer at 65533 to 65535 (D13), a fetch at 65533
to 65535 (D13, D14). That the stop is a refusal and never a fault is log entry 9. -/
def Obligations.RefusedExactlyWhereSpecGivesNoMeaning : Prop :=
  ∀ s : State, (∃ r, step s = .refused r) ↔
    s.stopped = false ∧
    ((s.ctl = .Continue ∧ ∃ (o : Opcode) (c : Cond) (sf : Bool) (rn rd : Reg) (op2 : Operand2),
        o ∈ [Opcode.reserved0101, .reserved0110, .reserved0111, .reserved1011, .reserved1110,
          .reserved1111] ∧
        decode s.d = o.instr c sf rn rd op2 ∧ conditionPassed c s.flags = true) ∨
      (s.ctl = .Continue ∧ ∃ (c : Cond) (pre up : Bool) (rn rd : Reg) (off : Offset),
        (decode s.d = .ldr c pre up rn rd off ∨ decode s.d = .str c pre up rn rd off) ∧
        conditionPassed c s.flags = true ∧
        65532 < (effectiveAddress pre up rn off s).toNat ∧
        (effectiveAddress pre up rn off s).toNat < 65536) ∨
      (s.ctl = .Continue ∧ ∃ t, exec (decode s.d) s = .next t ∧ t.ctl ≠ .Stop ∧
        65532 < t.pc.toNat ∧ t.pc.toNat < 65536) ∨
      (s.ctl = .Skip ∧ 65532 < s.pc.toNat))

/-! ## Reset and loading -/

/-- R172, the spec's decision D3: the reset sequence, over whatever memory is in place and again from any
state, and the first cycle, after which the first instruction executes with `pc = 8`. That a reset of any
state gives the whole state `State.afterReset m` also says two things that R172 does not and the model
chose: the reports are empty after a further reset (log entry 3), and D holds what it holds after the first
reset, 0 (log entry 2). -/
def Obligations.ResetSequence : Prop :=
  ∀ m : Memory,
    (∀ j, j ≠ pcSlot → (State.afterReset m).read j = 0) ∧ (State.afterReset m).pc = 4 ∧
    (State.afterReset m).f = m.readWord 0 ∧ (State.afterReset m).ctl = .Skip ∧
    (State.afterReset m).mem = m ∧ (State.afterReset m).stopped = false ∧
    (∀ s : State, s.mem = m → s.resetAgain = State.afterReset m) ∧
    ∃ t, step (State.afterReset m) = .next t ∧ t.ctl = .Continue ∧ t.d = m.readWord 0 ∧
      t.f = m.readWord 4 ∧ t.pc = 8

/-- R173, the spec's decision D4: byte `i` of an image that fits becomes byte `i` of memory and the bytes
above it are 0; an image longer than memory is not run. -/
def Obligations.ImageIsLoaded : Prop :=
  ∀ image : List Byte,
    (image.length ≤ 65536 →
      ∃ m : Memory, State.load image = some (State.afterReset m) ∧
        (∀ x, x < image.length → some (m.read x) = image[x]?) ∧
        (∀ x, image.length ≤ x → m.read x = 0)) ∧
    (65536 < image.length → State.load image = none)

/-! ## Source-text conventions that fix encodings -/

/-- R82 (the spec derives it from R65): legalization gives a rotated immediate of exactly the value, with
the smallest rotation count, and finds one whenever there is one. -/
def Obligations.LegalizedImmediates : Prop :=
  (∀ (v : Word) (rot : Fin 16) (imm8 : Byte), legalizeImmediate v = some (.imm rot imm8) →
    immediateValue rot imm8 = v ∧
    ∀ (rot' : Fin 16) (imm8' : Byte), immediateValue rot' imm8' = v → rot ≤ rot') ∧
  (∀ (rot : Fin 16) (imm8 : Byte), ∃ rot' imm8',
    legalizeImmediate (immediateValue rot imm8) = some (.imm rot' imm8'))

/-- The field of R83 and the execution of R132 agree: a branch assembled at `A` for the target `T`, both
multiples of 4 in memory, goes to `T` when it executes with `pc = A + 8`. -/
def Obligations.AssembledBranchReachesTarget : Prop :=
  ∀ (a target : Word) (s : State), a.toNat < 65536 → target.toNat < 65536 → a.toNat % 4 = 0 →
    target.toNat % 4 = 0 → s.pc = a + 8 →
    ∃ t, exec (.b .al (branchOffsetField target a)) s = .next t ∧ t.pc = target ∧ t.ctl = .Skip

/-- R84 with R127: `ldr rd, =value` loads its value: directly when it fits 8 bits, else from the literal at
`L` when the load executes with `pc = A + 8` and the literal lies within 4095 bytes of that. -/
def Obligations.LoadImmediateLoadsValue : Prop :=
  ∀ (rd : Reg) (value literal a : Word) (s : State), a.toNat < 65528 → literal.toNat ≤ 65532 →
    s.pc = a + 8 →
    (value.toNat ≤ 255 →
      ∃ t, exec (loadImmediate rd value literal a) s = .next t ∧ t.read (slotOf rd) = value) ∧
    (255 < value.toNat → literal.toNat ≤ a.toNat + 8 + 4095 → a.toNat + 8 ≤ literal.toNat + 4095 →
      s.mem.readWord literal.toNat = value →
      ∃ t, exec (loadImmediate rd value literal a) s = .next t ∧ t.read (slotOf rd) = value)
end

