-- ==== Sys2Proof/Laws/Decode.lean ====
section
/-! SUPPORT. The laws of the codec: what reading a field of a placed value gives, and that each small
field type is recovered from its bits. -/

namespace Sys2Proof

@[simp] theorem getLsbD_field {m : Nat} (w : BitVec m) (lo n i : Nat) :
    (field w lo n).getLsbD i = (decide (i < n) && w.getLsbD (lo + i)) := by
  simp [field]

theorem getLsbD_place {n : Nat} (m : Nat) (v : BitVec n) (lo i : Nat) :
    (place m v lo).getLsbD i = (decide (i < m) && decide (lo ≤ i) && v.getLsbD (i - lo)) := by
  by_cases h : i < m <;> by_cases h2 : lo ≤ i
  · simp [place, h, h2]
  all_goals simp [place, h, h2]

@[simp] theorem field_or {m : Nat} (w v : BitVec m) (lo n : Nat) :
    field (w ||| v) lo n = field w lo n ||| field v lo n := by
  simp [field, BitVec.extractLsb'_or]

/-- A field read where a value was placed gives the value. -/
theorem field_place_same {m n : Nat} (v : BitVec n) (lo : Nat) (h : lo + n ≤ m) :
    field (place m v lo) lo n = v := by
  apply BitVec.eq_of_getLsbD_eq
  intro i hi
  have h1 : lo + i < m := by omega
  simp only [getLsbD_field, getLsbD_place, hi, h1, decide_true, Bool.true_and, Nat.le_add_right,
    Nat.add_sub_cancel_left]

/-- A field read beside a placed value gives 0. -/
theorem field_place_disjoint {m n k : Nat} (v : BitVec k) (lo lo' : Nat)
    (h : lo' + n ≤ lo ∨ lo + k ≤ lo') : field (place m v lo) lo' n = 0 := by
  apply BitVec.eq_of_getLsbD_eq
  intro i hi
  obtain h | h := h
  · have h1 : ¬ lo ≤ lo' + i := by omega
    simp only [getLsbD_field, getLsbD_place, h1, decide_false, Bool.and_false, Bool.false_and,
      BitVec.ofNat_eq_ofNat, BitVec.getLsbD_zero]
  · have h1 : v.getLsbD (lo' + i - lo) = false := BitVec.getLsbD_of_ge _ _ (by omega)
    simp only [getLsbD_field, getLsbD_place, h1, Bool.and_false, BitVec.ofNat_eq_ofNat,
      BitVec.getLsbD_zero]

@[simp] theorem Reg.ofBits_toBits (r : Reg) : Reg.ofBits (Reg.toBits r) = r := by
  apply Fin.ext
  have := r.isLt
  simp only [Reg.ofBits, Reg.toBits, BitVec.toNat_ofNat]
  omega

@[simp] theorem Cond.ofBits_toBits (c : Cond) : Cond.ofBits c.toBits = c := by cases c <;> rfl

@[simp] theorem ShiftKind.ofBits_toBits (k : ShiftKind) : ShiftKind.ofBits k.toBits = k := by cases k <;> rfl

@[simp] theorem Opcode.ofBits_toBits (o : Opcode) : Opcode.ofBits o.toBits = o := by cases o <;> rfl

theorem Cond.toBits_ofBits (b : BitVec 4) : (Cond.ofBits b).toBits = b := by
  revert b; decide

theorem Opcode.toBits_ofBits (b : BitVec 4) : (Opcode.ofBits b).toBits = b := by
  revert b; decide

theorem ShiftKind.toBits_ofBits (b : BitVec 2) : (ShiftKind.ofBits b).toBits = b := by
  revert b; decide

theorem Reg.toBits_ofBits (b : BitVec 4) : Reg.toBits (Reg.ofBits b) = b := by
  simp [Reg.toBits, Reg.ofBits]

@[simp] theorem ShiftedReg.ofBits_toBits (sr : ShiftedReg) : ShiftedReg.ofBits sr.toBits = sr := by
  obtain ⟨n, k, r⟩ := sr
  have h1 : field (ShiftedReg.toBits ⟨n, k, r⟩) 7 5 = BitVec.ofNat 5 n.val := by
    simp (disch := omega) [ShiftedReg.toBits, field_place_same, field_place_disjoint]
  have h2 : field (ShiftedReg.toBits ⟨n, k, r⟩) 5 2 = k.toBits := by
    simp (disch := omega) [ShiftedReg.toBits, field_place_same, field_place_disjoint]
  have h3 : field (ShiftedReg.toBits ⟨n, k, r⟩) 0 4 = Reg.toBits r := by
    simp (disch := omega) [ShiftedReg.toBits, field_place_same, field_place_disjoint]
  have hn := n.isLt
  simp only [ShiftedReg.ofBits, h2, h3, ShiftKind.ofBits_toBits, Reg.ofBits_toBits,
    ShiftedReg.mk.injEq, and_true]
  apply Fin.ext
  simp only [h1, BitVec.toNat_ofNat]
  omega

@[simp] theorem Operand2.ofBits_toBits (op2 : Operand2) :
    Operand2.ofBits op2.immediateFlag op2.toBits = op2 := by
  cases op2 with
  | reg sr => simp [Operand2.ofBits, Operand2.immediateFlag, Operand2.toBits]
  | imm rot imm8 =>
    have h1 : field (Operand2.toBits (.imm rot imm8)) 8 4 = BitVec.ofNat 4 rot.val := by
      simp (disch := omega) [Operand2.toBits, field_place_same, field_place_disjoint]
    have h2 : field (Operand2.toBits (.imm rot imm8)) 0 8 = imm8 := by
      simp (disch := omega) [Operand2.toBits, field_place_same, field_place_disjoint]
    have hn := rot.isLt
    simp only [Operand2.ofBits, Operand2.immediateFlag, if_true, h2, Operand2.imm.injEq, and_true]
    apply Fin.ext
    simp only [h1, BitVec.toNat_ofNat]
    omega

@[simp] theorem Offset.ofBits_toBits (cfg : Config) (off : Offset) :
    Offset.ofBits cfg (off.immediateFlag cfg) off.toBits = off := by
  cases off <;> cases h : cfg.sdtISetMeansRegister <;>
    simp [Offset.ofBits, Offset.immediateFlag, Offset.toBits, h]

/-- The bytes of a word read back as the word (R38). -/
theorem wordOfBytes_byteOfWord (w : Word) :
    wordOfBytes (byteOfWord w 0) (byteOfWord w 1) (byteOfWord w 2) (byteOfWord w 3) = w := by
  apply BitVec.eq_of_getLsbD_eq
  intro i hi
  interval_cases i <;> simp [wordOfBytes, byteOfWord, getLsbD_place, -BitVec.getLsbD_eq_getElem]

end Sys2Proof
end

