-- ==== Sys2Proof/Laws/Flags.lean ====
section
/-! SUPPORT. What each flag computation does to each bit of the flag register. -/

namespace Sys2Proof.Machine

/-- A single-bit write changes that bit and no other (R7). -/
theorem getLsbD_setBit (w : Word) (i j : Nat) (b : Bool) (hi : i < 32) :
    (setBit w i b).getLsbD j = if j = i then b else w.getLsbD j := by
  by_cases h32 : j < 32
  · cases b
    · by_cases h : j = i
      · subst h; simp [setBit, getLsbD_place, h32, -BitVec.getLsbD_eq_getElem]
      · have : ¬ (i ≤ j ∧ j - i = 0) := by omega
        simp only [setBit, Bool.false_eq_true, if_false, h, BitVec.getLsbD_and, BitVec.getLsbD_not,
          getLsbD_place, h32, decide_true, Bool.true_and]
        by_cases hij : i ≤ j
        · have hne : j - i ≠ 0 := by omega
          simp [hij, BitVec.getLsbD_one, hne]
        · simp [hij]
    · by_cases h : j = i
      · subst h; simp [setBit, getLsbD_place, h32, -BitVec.getLsbD_eq_getElem]
      · simp only [setBit, if_true, h, if_false, BitVec.getLsbD_or, getLsbD_place, h32, decide_true,
          Bool.true_and]
        by_cases hij : i ≤ j
        · have hne : j - i ≠ 0 := by omega
          simp [hij, BitVec.getLsbD_one, hne]
        · simp [hij]
  · have hne : j ≠ i := by omega
    simp only [hne, if_false]
    rw [BitVec.getLsbD_of_ge _ _ (by omega), BitVec.getLsbD_of_ge _ _ (by omega)]

/-- The same for a write that may be absent. -/
theorem getLsbD_setBit? (w : Word) (i j : Nat) (b : Option Bool) (hi : i < 32) :
    (setBit? w i b).getLsbD j = if j = i then b.getD (w.getLsbD j) else w.getLsbD j := by
  cases b with
  | none => simp [setBit?]
  | some b => simp [setBit?, getLsbD_setBit _ _ _ _ hi]

/-- Every bit of the flag register after a DataProcessing instruction with S = 1 (R93, R99, R100). -/
theorem getLsbD_dataProcessingFlags (cpsr res : Word) (shC aluC : Option Bool) (j : Nat) :
    (dataProcessingFlags cpsr shC res aluC).getLsbD j =
      if j = 31 then res.getLsbD 31
      else if j = 30 then decide (res = 0)
      else if j = 29 then aluC.getD (shC.getD (cpsr.getLsbD 29))
      else cpsr.getLsbD j := by
  simp only [dataProcessingFlags]
  rw [getLsbD_setBit? _ _ _ _ (by omega), getLsbD_setBit _ _ _ _ (by omega),
    getLsbD_setBit _ _ _ _ (by omega), getLsbD_setBit? _ _ _ _ (by omega)]
  by_cases h31 : j = 31
  · subst h31; simp
  · by_cases h30 : j = 30
    · subst h30; simp
    · by_cases h29 : j = 29
      · subst h29; simp
      · simp [h31, h30, h29]

/-- Every bit of the flag register after MUL or MLA with S = 1 (R117, default parameter). -/
theorem getLsbD_multiplyFlags (cpsr res : Word) (j : Nat) :
    (multiplyFlags Config.hardware cpsr res).getLsbD j =
      if j = 31 then (cpsr.getLsbD 31 || res.getLsbD 31)
      else if j = 30 then (cpsr.getLsbD 30 || decide (res = 0))
      else cpsr.getLsbD j := by
  have hz : res = 0 → res.getLsbD 31 = false := by intro h; subst h; rfl
  simp only [multiplyFlags, Config.hardware, Bool.false_eq_true, if_false]
  by_cases hn : res.getLsbD 31 = true
  · have h0 : res ≠ 0 := fun h => by rw [hz h] at hn; cases hn
    simp only [hn, if_true, getLsbD_setBit _ _ _ _ (show 31 < 32 by omega), h0, decide_false,
      Bool.or_true, Bool.or_false]
    split
    · rfl
    · split
      · next h30 => rw [h30]
      · rfl
  · simp only [Bool.not_eq_true] at hn
    simp only [hn, Bool.false_eq_true, if_false, Bool.or_false]
    by_cases h0 : res = 0
    · simp only [h0, if_true, getLsbD_setBit _ _ _ _ (show 30 < 32 by omega), decide_true, Bool.or_true]
      by_cases h31 : j = 31
      · subst h31; simp
      · simp [h31]
    · simp only [h0, if_false, decide_false, Bool.or_false]
      split
      · next h31 => rw [h31]
      · split
        · next h30 => rw [h30]
        · rfl

/-- A flag write that changes only bits 31 to 29 keeps V and bits 27:0 (R29, R30). -/
theorem field_low_eq {w v : Word} (h : ∀ j, j < 29 → w.getLsbD j = v.getLsbD j) :
    field w 0 29 = field v 0 29 := by
  apply BitVec.eq_of_getLsbD_eq
  intro i hi
  simp [h i hi, -BitVec.getLsbD_eq_getElem, getLsbD_field]

end Sys2Proof.Machine
end

