-- ==== Sys2Proof/Laws/Memory.lean ====
section
/-! SUPPORT. The laws of memory: a read after a write, and that every operation keeps the canonical form. -/

namespace Sys2Proof.Machine

theorem lookupCell_of_lt {lo : Nat} : ∀ {l : List Host.Cell} {a : Nat}, wfCells lo l = true → a < lo →
    lookupCell l a = Config.unlistedByte
  | [], _, _, _ => rfl
  | (b, v) :: rest, a, h, ha => by
    simp only [wfCells, Bool.and_eq_true, decide_eq_true_eq] at h
    have hb : b ≠ a := by omega
    simp only [lookupCell, hb, if_false]
    exact lookupCell_of_lt h.2 (by omega)

theorem lookupCell_storeCell_of_ne : ∀ (l : List Host.Cell) {a x : Nat} (v : Byte), x ≠ a →
    lookupCell (storeCell l a v) x = lookupCell l x
  | [], a, x, v, h => by
    simp only [storeCell]
    split <;> simp [lookupCell, h.symm]
  | (b, u) :: rest, a, x, v, h => by
    have ih := lookupCell_storeCell_of_ne rest v h
    simp only [storeCell]
    split
    · split <;> simp [lookupCell, h.symm]
    · split
      · next hab => split <;> simp [lookupCell, h.symm, ← hab]
      · simp [lookupCell, ih]

theorem lookupCell_storeCell_same : ∀ {lo : Nat} {l : List Host.Cell} {a : Nat} (v : Byte),
    wfCells lo l = true → lookupCell (storeCell l a v) a = v
  | _, [], a, v, _ => by
    simp only [storeCell]
    split
    · next h => exact h.symm
    · simp [lookupCell]
  | _, (b, u) :: rest, a, v, h => by
    simp only [wfCells, Bool.and_eq_true, decide_eq_true_eq] at h
    simp only [storeCell]
    split
    · next hab =>
      split
      · next hv =>
        have hb : b ≠ a := by omega
        simp only [lookupCell, hb, if_false, hv]
        exact lookupCell_of_lt h.2 (by omega)
      · simp [lookupCell]
    · split
      · next hab =>
        split
        · next hv => rw [hv]; exact lookupCell_of_lt h.2 (by omega)
        · simp [lookupCell]
      · next hne =>
        have hb : b ≠ a := fun e => hne e.symm
        simp only [lookupCell, hb, if_false]
        exact lookupCell_storeCell_same v h.2

theorem wfCells_mono {lo lo' : Nat} {l : List Host.Cell} (hlo : lo' ≤ lo) (h : wfCells lo l = true) :
    wfCells lo' l = true := by
  cases l with
  | nil => rfl
  | cons c rest =>
    simp only [wfCells, Bool.and_eq_true, decide_eq_true_eq] at h ⊢
    exact ⟨⟨⟨by omega, h.1.1.2⟩, h.1.2⟩, h.2⟩

theorem wfCells_storeCell : ∀ {lo : Nat} {l : List Host.Cell} {a : Nat} (v : Byte),
    wfCells lo l = true → lo ≤ a → a < Config.memSize → wfCells lo (storeCell l a v) = true
  | _, [], a, v, _, hlo, ha => by
    simp only [storeCell]
    split
    · rfl
    · next hv => simp [wfCells, hlo, ha, hv]
  | lo, (b, u) :: rest, a, v, h, hlo, ha => by
    have hw := h
    simp only [wfCells, Bool.and_eq_true, decide_eq_true_eq] at h
    obtain ⟨⟨⟨hb, hbm⟩, hu⟩, hr⟩ := h
    simp only [storeCell]
    split
    · next hab =>
      split
      · exact hw
      · next hv =>
        simp only [wfCells, Bool.and_eq_true, decide_eq_true_eq]
        exact ⟨⟨⟨hlo, ha⟩, hv⟩, ⟨⟨by omega, hbm⟩, hu⟩, hr⟩
    · next hnlt =>
      split
      · next hab =>
        subst hab
        split
        · exact wfCells_mono (by omega) hr
        · next hv =>
          simp only [wfCells, Bool.and_eq_true, decide_eq_true_eq]
          exact ⟨⟨⟨hlo, ha⟩, hv⟩, hr⟩
      · next hne =>
        simp only [wfCells, Bool.and_eq_true, decide_eq_true_eq]
        exact ⟨⟨⟨hb, hbm⟩, hu⟩, wfCells_storeCell v hr (by omega) ha⟩

/-- A write leaves every other byte alone. -/
theorem Memory.read_write_of_ne (m : Memory) {a x : Nat} (v : Byte) (h : x ≠ a) :
    (m.write a v).read x = m.read x := lookupCell_storeCell_of_ne m.cells v h

/-- A read after a write to the same address gives the byte written. -/
theorem Memory.read_write_same {m : Memory} (hm : m.wf = true) (a : Nat) (v : Byte) :
    (m.write a v).read a = v := lookupCell_storeCell_same v hm

/-- A write keeps the canonical form. -/
theorem Memory.write_wf {m : Memory} (hm : m.wf = true) {a : Nat} (v : Byte) (ha : a < Config.memSize) :
    (m.write a v).wf = true := wfCells_storeCell v hm (Nat.zero_le a) ha

theorem Memory.empty_wf : Memory.empty.wf = true := rfl

@[simp] theorem Memory.empty_read (a : Nat) : Memory.empty.read a = Config.unlistedByte := rfl

/-- A word store leaves every byte outside its four alone. -/
theorem Memory.read_writeWord_of_outside (m : Memory) {a x : Nat} (v : Word) (h : x < a ∨ a + 4 ≤ x) :
    (m.writeWord a v).read x = m.read x := by
  unfold Memory.writeWord
  rw [Memory.read_write_of_ne _ _ (by omega), Memory.read_write_of_ne _ _ (by omega),
    Memory.read_write_of_ne _ _ (by omega), Memory.read_write_of_ne _ _ (by omega)]

/-- A word store keeps the canonical form. -/
theorem Memory.writeWord_wf {m : Memory} (hm : m.wf = true) {a : Nat} (v : Word)
    (ha : a ≤ Config.lastWordAddr) : (m.writeWord a v).wf = true := by
  have h : a + 3 < Config.memSize := by simp only [Config.lastWordAddr, Config.memSize] at *; omega
  exact Memory.write_wf (Memory.write_wf (Memory.write_wf (Memory.write_wf hm _ (by omega)) _ (by omega)) _
    (by omega)) _ h

/-- Byte `k` of a stored word lies at `a + k` (R37). -/
theorem Memory.read_writeWord_same {m : Memory} (hm : m.wf = true) {a : Nat} (v : Word)
    (ha : a ≤ Config.lastWordAddr) {k : Nat} (hk : k < 4) :
    (m.writeWord a v).read (a + k) = byteOfWord v k := by
  have hmem : a + 3 < Config.memSize := by simp only [Config.lastWordAddr, Config.memSize] at *; omega
  have h1 := Memory.write_wf hm (byteOfWord v 0) (a := a) (by omega)
  have h2 := Memory.write_wf h1 (byteOfWord v 1) (a := a + 1) (by omega)
  have h3 := Memory.write_wf h2 (byteOfWord v 2) (a := a + 2) (by omega)
  unfold Memory.writeWord
  obtain rfl | rfl | rfl | rfl : k = 0 ∨ k = 1 ∨ k = 2 ∨ k = 3 := by omega
  · rw [Memory.read_write_of_ne _ _ (by omega), Memory.read_write_of_ne _ _ (by omega),
      Memory.read_write_of_ne _ _ (by omega)]
    exact Memory.read_write_same hm _ _
  · rw [Memory.read_write_of_ne _ _ (by omega), Memory.read_write_of_ne _ _ (by omega)]
    exact Memory.read_write_same h1 _ _
  · rw [Memory.read_write_of_ne _ _ (by omega)]
    exact Memory.read_write_same h2 _ _
  · exact Memory.read_write_same h3 _ _

/-- Storing an image that fits keeps the canonical form (R173). -/
theorem storeImage_wf : ∀ (image : List Byte) {m : Memory} {a : Nat}, m.wf = true →
    a + image.length ≤ Config.memSize → (storeImage m a image).wf = true
  | [], _, _, hm, _ => hm
  | v :: rest, m, a, hm, h => by
    simp only [List.length_cons] at h
    exact storeImage_wf rest (Memory.write_wf hm v (by omega)) (by omega)

theorem Memory.ofImage_wf {image : List Byte} (h : image.length ≤ Config.memSize) :
    (Memory.ofImage image).wf = true := storeImage_wf image Memory.empty_wf (by omega)

theorem storeImage_read_below : ∀ (image : List Byte) (m : Memory) {a x : Nat}, x < a →
    (storeImage m a image).read x = m.read x
  | [], _, _, _, _ => rfl
  | v :: rest, m, a, x, h => by
    rw [storeImage, storeImage_read_below rest _ (by omega), Memory.read_write_of_ne _ _ (by omega)]

end Sys2Proof.Machine
end

