-- ==== Sys2Proof/Laws/State.lean ====
section
/-! SUPPORT. One lemma for each field under each update of State, so that no proof unfolds a record
update, and what reading a slot gives after each update. -/

namespace Sys2Proof.Machine

section Write
variable (s : State) (i j : Slot) (v : Word)

@[simp] theorem write_mem : (s.write i v).mem = s.mem := rfl
@[simp] theorem write_f : (s.write i v).f = s.f := rfl
@[simp] theorem write_d : (s.write i v).d = s.d := rfl
@[simp] theorem write_ctl : (s.write i v).ctl = s.ctl := rfl
@[simp] theorem write_reports : (s.write i v).reports = s.reports := rfl

@[simp] theorem read_write_same : (s.write i v).read i = v := by
  simp [State.read, State.write]

theorem read_write_of_ne (h : j ≠ i) : (s.write i v).read j = s.read j := by
  have h' : i.val ≠ j.val := fun e => h (Fin.ext e.symm)
  simp [State.read, State.write, h']

theorem read_write : (s.write i v).read j = if j = i then v else s.read j := by
  split
  · next h => subst h; exact read_write_same s j v
  · next h => exact read_write_of_ne s i j v h

end Write

section Others
variable (s : State) (c : Ctl) (m : Memory) (f d : Word) (r : Report) (i : Slot)

@[simp] theorem setCtl_mem : (s.setCtl c).mem = s.mem := rfl
@[simp] theorem setCtl_f : (s.setCtl c).f = s.f := rfl
@[simp] theorem setCtl_d : (s.setCtl c).d = s.d := rfl
@[simp] theorem setCtl_ctl : (s.setCtl c).ctl = c := rfl
@[simp] theorem setCtl_reports : (s.setCtl c).reports = s.reports := rfl
@[simp] theorem setCtl_read : (s.setCtl c).read i = s.read i := rfl
@[simp] theorem setCtl_pc : (s.setCtl c).pc = s.pc := rfl
@[simp] theorem setCtl_cpsr : (s.setCtl c).cpsr = s.cpsr := rfl
@[simp] theorem setCtl_flags : (s.setCtl c).flags = s.flags := rfl

@[simp] theorem setMem_mem : (s.setMem m).mem = m := rfl
@[simp] theorem setMem_f : (s.setMem m).f = s.f := rfl
@[simp] theorem setMem_d : (s.setMem m).d = s.d := rfl
@[simp] theorem setMem_ctl : (s.setMem m).ctl = s.ctl := rfl
@[simp] theorem setMem_reports : (s.setMem m).reports = s.reports := rfl
@[simp] theorem setMem_read : (s.setMem m).read i = s.read i := rfl
@[simp] theorem setMem_pc : (s.setMem m).pc = s.pc := rfl
@[simp] theorem setMem_cpsr : (s.setMem m).cpsr = s.cpsr := rfl

@[simp] theorem setLatches_mem : (s.setLatches f d).mem = s.mem := rfl
@[simp] theorem setLatches_f : (s.setLatches f d).f = f := rfl
@[simp] theorem setLatches_d : (s.setLatches f d).d = d := rfl
@[simp] theorem setLatches_ctl : (s.setLatches f d).ctl = s.ctl := rfl
@[simp] theorem setLatches_reports : (s.setLatches f d).reports = s.reports := rfl
@[simp] theorem setLatches_read : (s.setLatches f d).read i = s.read i := rfl
@[simp] theorem setLatches_pc : (s.setLatches f d).pc = s.pc := rfl
@[simp] theorem setLatches_cpsr : (s.setLatches f d).cpsr = s.cpsr := rfl

@[simp] theorem report_mem : (s.report r).mem = s.mem := rfl
@[simp] theorem report_f : (s.report r).f = s.f := rfl
@[simp] theorem report_d : (s.report r).d = s.d := rfl
@[simp] theorem report_ctl : (s.report r).ctl = s.ctl := rfl
@[simp] theorem report_reports : (s.report r).reports = s.reports ++ [r] := rfl
@[simp] theorem report_read : (s.report r).read i = s.read i := rfl
@[simp] theorem report_pc : (s.report r).pc = s.pc := rfl
@[simp] theorem report_cpsr : (s.report r).cpsr = s.cpsr := rfl

@[simp] theorem reportAndContinue_mem : (s.reportAndContinue r).mem = s.mem := rfl
@[simp] theorem reportAndContinue_f : (s.reportAndContinue r).f = s.f := rfl
@[simp] theorem reportAndContinue_d : (s.reportAndContinue r).d = s.d := rfl
@[simp] theorem reportAndContinue_ctl : (s.reportAndContinue r).ctl = .Continue := rfl
@[simp] theorem reportAndContinue_reports : (s.reportAndContinue r).reports = s.reports ++ [r] := rfl
@[simp] theorem reportAndContinue_read : (s.reportAndContinue r).read i = s.read i := rfl
@[simp] theorem reportAndContinue_pc : (s.reportAndContinue r).pc = s.pc := rfl
@[simp] theorem reportAndContinue_cpsr : (s.reportAndContinue r).cpsr = s.cpsr := rfl

end Others

/-- No register field names the flag register (R17). -/
@[simp] theorem slotOf_ne_cpsrSlot (r : Reg) : slotOf r ≠ cpsrSlot := by
  intro h
  have h' : r.val = 16 := congrArg Fin.val h
  omega

@[simp] theorem cpsrSlot_ne_slotOf (r : Reg) : cpsrSlot ≠ slotOf r := (slotOf_ne_cpsrSlot r).symm

@[simp] theorem pcSlot_ne_cpsrSlot : pcSlot ≠ cpsrSlot := by decide

@[simp] theorem cpsrSlot_ne_pcSlot : cpsrSlot ≠ pcSlot := by decide

@[simp] theorem slotOf_inj (r q : Reg) : slotOf r = slotOf q ↔ r = q := Fin.castSucc_inj

/-- The flag register is untouched by a write to a slot a register field names. -/
@[simp] theorem write_slotOf_cpsr (s : State) (r : Reg) (v : Word) : (s.write (slotOf r) v).cpsr = s.cpsr :=
  read_write_of_ne _ _ _ _ (cpsrSlot_ne_slotOf r)

@[simp] theorem write_cpsr_cpsr (s : State) (v : Word) : (s.write cpsrSlot v).cpsr = v :=
  read_write_same _ _ _

@[simp] theorem write_pc_pc (s : State) (v : Word) : (s.write pcSlot v).pc = v := read_write_same _ _ _

@[simp] theorem write_cpsr_pc (s : State) (v : Word) : (s.write cpsrSlot v).pc = s.pc :=
  read_write_of_ne _ _ _ _ pcSlot_ne_cpsrSlot

@[simp] theorem write_pc_cpsr (s : State) (v : Word) : (s.write pcSlot v).cpsr = s.cpsr :=
  read_write_of_ne _ _ _ _ cpsrSlot_ne_pcSlot

/-- Two states are equal when every slot and every other field is. -/
theorem State.ext_read {s t : State} (hr : ∀ i, s.read i = t.read i) (hm : s.mem = t.mem) (hf : s.f = t.f)
    (hd : s.d = t.d) (hc : s.ctl = t.ctl) (hp : s.reports = t.reports) : s = t := by
  cases s; cases t
  simp only [State.mk.injEq] at *
  refine ⟨?_, hm, hf, hd, hc, hp⟩
  apply Vector.ext
  intro k hk
  exact hr ⟨k, hk⟩

end Sys2Proof.Machine
end

