-- ==== Sys2Proof/Laws/Exec.lean ====
section
/-! SUPPORT. One lemma for each shared operation that says once everything it can do; proofs about
instructions and steps cite these instead of unfolding the operation. -/

namespace Sys2Proof.Machine

theorem whenPassed_passed {c : Cond} {s : State} (e : Result) (h : conditionPassed c s.flags = true) :
    whenPassed c s e = e := by simp [whenPassed, h]

theorem whenPassed_failed {c : Cond} {s : State} (e : Result) (h : conditionPassed c s.flags = false) :
    whenPassed c s e = .next (s.setCtl .Continue) := by simp [whenPassed, h]

/-- What the gate can answer: the effect under a passing condition, a no-op under a failing one. -/
theorem whenPassed_cases (c : Cond) (s : State) (e : Result) :
    (conditionPassed c s.flags = true ∧ whenPassed c s e = e) ∨
      (conditionPassed c s.flags = false ∧ whenPassed c s e = .next (s.setCtl .Continue)) := by
  cases h : conditionPassed c s.flags
  · exact .inr ⟨rfl, whenPassed_failed e h⟩
  · exact .inl ⟨rfl, whenPassed_passed e h⟩

section DataProcessing
variable (cfg : Config) (w : Bool) (op : Word → Word → AluOutput) (sf : Bool) (rn rd : Reg) (op2 : Operand2)
  (s : State)

@[simp] theorem dataProcessingEffect_mem : (dataProcessingEffect cfg w op sf rn rd op2 s).mem = s.mem := by
  cases w <;> cases sf <;> rfl
@[simp] theorem dataProcessingEffect_f : (dataProcessingEffect cfg w op sf rn rd op2 s).f = s.f := by
  cases w <;> cases sf <;> rfl
@[simp] theorem dataProcessingEffect_d : (dataProcessingEffect cfg w op sf rn rd op2 s).d = s.d := by
  cases w <;> cases sf <;> rfl
@[simp] theorem dataProcessingEffect_ctl :
    (dataProcessingEffect cfg w op sf rn rd op2 s).ctl = .Continue := by
  cases w <;> cases sf <;> rfl
@[simp] theorem dataProcessingEffect_reports :
    (dataProcessingEffect cfg w op sf rn rd op2 s).reports = s.reports := by
  cases w <;> cases sf <;> rfl

/-- Slots other than the flag register after a DataProcessing instruction. -/
theorem dataProcessingEffect_read {i : Slot} (hi : i ≠ cpsrSlot) :
    (dataProcessingEffect cfg w op sf rn rd op2 s).read i =
      if w = true ∧ i = slotOf rd then (op (s.read (slotOf rn)) (operand2Value op2 s)).res else s.read i := by
  cases w <;> cases sf <;> simp [dataProcessingEffect, read_write, hi]

/-- The flag register after a DataProcessing instruction. -/
theorem dataProcessingEffect_cpsr :
    (dataProcessingEffect cfg w op sf rn rd op2 s).cpsr =
      if sf then
        dataProcessingFlags s.cpsr (operand2Carry cfg op2 sf s)
          (op (s.read (slotOf rn)) (operand2Value op2 s)).res
          (op (s.read (slotOf rn)) (operand2Value op2 s)).carry
      else s.cpsr := by
  cases w <;> cases sf <;> simp [dataProcessingEffect]

end DataProcessing

section Multiply
variable (cfg : Config) (sf : Bool) (rd : Reg) (res : Word) (s : State)

@[simp] theorem multiplyEffect_mem : (multiplyEffect cfg sf rd res s).mem = s.mem := by cases sf <;> rfl
@[simp] theorem multiplyEffect_f : (multiplyEffect cfg sf rd res s).f = s.f := by cases sf <;> rfl
@[simp] theorem multiplyEffect_d : (multiplyEffect cfg sf rd res s).d = s.d := by cases sf <;> rfl
@[simp] theorem multiplyEffect_ctl : (multiplyEffect cfg sf rd res s).ctl = .Continue := by
  cases sf <;> rfl
@[simp] theorem multiplyEffect_reports : (multiplyEffect cfg sf rd res s).reports = s.reports := by
  cases sf <;> rfl

/-- Slots other than the flag register after a multiply. -/
theorem multiplyEffect_read {i : Slot} (hi : i ≠ cpsrSlot) :
    (multiplyEffect cfg sf rd res s).read i = if i = slotOf rd then res else s.read i := by
  cases sf <;> simp [multiplyEffect, read_write, hi]

/-- The flag register after a multiply. -/
theorem multiplyEffect_cpsr :
    (multiplyEffect cfg sf rd res s).cpsr = if sf then multiplyFlags cfg s.cpsr res else s.cpsr := by
  cases sf <;> simp [multiplyEffect]

end Multiply

section Transfer
variable (cfg : Config) (move : Reg → Word → State → State) (pre up : Bool) (rn rd : Reg) (off : Offset)
  (s : State)

theorem inBounds_iff (a : Word) : inBounds a = true ↔ a.toNat < 65536 :=
  decide_eq_true_iff

theorem straddles_iff (a : Nat) : straddles a = true ↔ 65532 < a ∧ a < 65536 := by
  rw [straddles, Bool.and_eq_true, decide_eq_true_eq, decide_eq_true_eq]
  exact Iff.rfl

/-- A transfer whose four bytes lie in memory completes (R120). -/
theorem transfer_inside (h : (effectiveAddress pre up rn off s).toNat ≤ 65532) :
    transfer cfg move pre up rn rd off s =
      .next ((move rd (effectiveAddress pre up rn off s) (baseWrittenBack pre up rn off s)).setCtl
        .Continue) := by
  have h1 : inBounds (effectiveAddress pre up rn off s) = true := (inBounds_iff _).2 (by omega)
  have h2 : straddles (effectiveAddress pre up rn off s).toNat = false := by
    rw [← Bool.not_eq_true, straddles_iff]; omega
  simp [transfer, h1, h2]

/-- A transfer at 65533 to 65535 is refused (R42). -/
theorem transfer_straddling (h : 65532 < (effectiveAddress pre up rn off s).toNat)
    (h' : (effectiveAddress pre up rn off s).toNat < 65536) :
    transfer cfg move pre up rn rd off s =
      .refused (.straddlingAccess (effectiveAddress pre up rn off s)) := by
  have h1 : inBounds (effectiveAddress pre up rn off s) = true := (inBounds_iff _).2 h'
  have h2 : straddles (effectiveAddress pre up rn off s).toNat = true := (straddles_iff _).2 ⟨h, h'⟩
  simp [transfer, h1, h2]

/-- A transfer outside memory is reported and suppressed (R123). -/
theorem transfer_outside (h : 65536 ≤ (effectiveAddress pre up rn off s).toNat) :
    transfer Config.hardware move pre up rn rd off s =
      .next (s.reportAndContinue (.DataAddressOutOfBounds (effectiveAddress pre up rn off s))) := by
  have h1 : inBounds (effectiveAddress pre up rn off s) = false := by
    rw [← Bool.not_eq_true, inBounds_iff]; omega
  simp [transfer, h1, Config.hardware]

/-- The three cases of a transfer. -/
theorem transfer_cases :
    ((effectiveAddress pre up rn off s).toNat ≤ 65532 ∧
      transfer Config.hardware move pre up rn rd off s =
        .next ((move rd (effectiveAddress pre up rn off s) (baseWrittenBack pre up rn off s)).setCtl
          .Continue)) ∨
    (straddles (effectiveAddress pre up rn off s).toNat = true ∧
      transfer Config.hardware move pre up rn rd off s =
        .refused (.straddlingAccess (effectiveAddress pre up rn off s))) ∨
    (inBounds (effectiveAddress pre up rn off s) = false ∧
      transfer Config.hardware move pre up rn rd off s =
        .next (s.reportAndContinue (.DataAddressOutOfBounds (effectiveAddress pre up rn off s)))) := by
  by_cases h : (effectiveAddress pre up rn off s).toNat ≤ 65532
  · exact .inl ⟨h, transfer_inside _ _ _ _ _ _ _ _ h⟩
  · by_cases h' : (effectiveAddress pre up rn off s).toNat < 65536
    · exact .inr (.inl ⟨(straddles_iff _).2 ⟨by omega, h'⟩,
        transfer_straddling _ _ _ _ _ _ _ _ (by omega) h'⟩)
    · refine .inr (.inr ⟨?_, transfer_outside _ _ _ _ _ _ _ (by omega)⟩)
      rw [← Bool.not_eq_true, inBounds_iff]; exact h'

@[simp] theorem baseWrittenBack_mem : (baseWrittenBack pre up rn off s).mem = s.mem := by
  cases pre <;> rfl
@[simp] theorem baseWrittenBack_f : (baseWrittenBack pre up rn off s).f = s.f := by cases pre <;> rfl
@[simp] theorem baseWrittenBack_d : (baseWrittenBack pre up rn off s).d = s.d := by cases pre <;> rfl
@[simp] theorem baseWrittenBack_reports : (baseWrittenBack pre up rn off s).reports = s.reports := by
  cases pre <;> rfl
@[simp] theorem baseWrittenBack_cpsr : (baseWrittenBack pre up rn off s).cpsr = s.cpsr := by
  cases pre <;> simp [baseWrittenBack]

/-- The slots after the write-back of the base (R122). -/
theorem baseWrittenBack_read (i : Slot) :
    (baseWrittenBack pre up rn off s).read i =
      if pre = false ∧ i = slotOf rn then indexedBase up rn off s else s.read i := by
  cases pre <;> simp [baseWrittenBack, read_write]

end Transfer

/-- The two cases of a branch whose condition passed (R132). -/
theorem branchEffect_cases (offset : BitVec 24) (s : State) :
    (inBounds (branchTarget offset s) = true ∧
      branchEffect offset s = (s.write pcSlot (branchTarget offset s)).setCtl .Skip) ∨
    (inBounds (branchTarget offset s) = false ∧
      branchEffect offset s = s.reportAndContinue (.BranchTargetOutOfBounds (branchTarget offset s))) := by
  cases h : inBounds (branchTarget offset s)
  · exact .inr ⟨rfl, by simp [branchEffect, h]⟩
  · exact .inl ⟨rfl, by simp [branchEffect, h]⟩

theorem stopped_iff (s : State) : s.stopped = true ↔ s.ctl = .Stop ∨ 65536 ≤ s.pc.toNat := by
  have h := inBounds_iff s.pc
  simp only [State.stopped, Bool.or_eq_true, decide_eq_true_eq, Bool.not_eq_true', ← Bool.not_eq_true, h,
    Nat.not_lt]

theorem not_stopped_iff (s : State) : s.stopped = false ↔ s.ctl ≠ .Stop ∧ s.pc.toNat < 65536 := by
  rw [← Bool.not_eq_true, stopped_iff]; simp

/-- Phase 2 after the run has ended does nothing (R144). -/
theorem fetchPhase_stopped {s : State} (h : s.stopped = true) : fetchPhase s = .next s := by
  simp [fetchPhase, h]

/-- Phase 2 with the word inside memory (R144). -/
theorem fetchPhase_inside {s : State} (hc : s.ctl ≠ .Stop) (hp : s.pc.toNat ≤ 65532) :
    fetchPhase s =
      .next ((s.setLatches (s.mem.readWord s.pc.toNat) s.f).write pcSlot (s.pc + 4)) := by
  have h1 : s.stopped = false := (not_stopped_iff s).2 ⟨hc, by omega⟩
  have h2 : straddles s.pc.toNat = false := by rw [← Bool.not_eq_true, straddles_iff]; omega
  simp [fetchPhase, h1, h2]

/-- The three cases of phase 2 (R144). -/
theorem fetchPhase_cases (s : State) :
    (s.stopped = true ∧ fetchPhase s = .next s) ∨
    (s.ctl ≠ .Stop ∧ straddles s.pc.toNat = true ∧ fetchPhase s = .refused (.straddlingFetch s.pc)) ∨
    (s.ctl ≠ .Stop ∧ s.pc.toNat ≤ 65532 ∧ fetchPhase s =
      .next ((s.setLatches (s.mem.readWord s.pc.toNat) s.f).write pcSlot (s.pc + 4))) := by
  cases hs : s.stopped
  · obtain ⟨hc, hp⟩ := (not_stopped_iff s).1 hs
    by_cases h : s.pc.toNat ≤ 65532
    · exact .inr (.inr ⟨hc, h, fetchPhase_inside hc h⟩)
    · have h2 : straddles s.pc.toNat = true := (straddles_iff _).2 ⟨by omega, hp⟩
      exact .inr (.inl ⟨hc, h2, by simp [fetchPhase, hs, h2]⟩)
  · exact .inl ⟨rfl, fetchPhase_stopped hs⟩

/-- A core whose run has ended keeps its state (R145). -/
theorem step_stopped {s : State} (h : s.stopped = true) : step s = .next s := by
  simp [step, cycle, h]

/-- A cycle at `Continue` runs the decoded word, then fetches (R140, R141). -/
theorem step_continue {s : State} (h : s.stopped = false) (hc : s.ctl = .Continue) :
    step s = thenFetch (exec (decode s.d) s) := by
  simp [step, cycle, h, hc]

/-- A cycle at `Skip` discards the word, then fetches (R140, R142). -/
theorem step_skip {s : State} (h : s.stopped = false) (hc : s.ctl = .Skip) :
    step s = fetchPhase (discardWord s) := by
  simp [step, cycle, h, hc]

/-- What a step with a next state did: nothing because the run has ended, or phase 1 to some state and
then phase 2. -/
theorem step_next_cases {s u : State} (h : step s = .next u) :
    (s.stopped = true ∧ u = s) ∨
    (s.stopped = false ∧ s.ctl = .Continue ∧ ∃ t, exec (decode s.d) s = .next t ∧ fetchPhase t = .next u) ∨
    (s.stopped = false ∧ s.ctl = .Skip ∧ fetchPhase (discardWord s) = .next u) := by
  cases hs : s.stopped
  · obtain ⟨hc, _⟩ := (not_stopped_iff s).1 hs
    cases hctl : s.ctl
    · rw [step_skip hs hctl] at h
      exact .inr (.inr ⟨rfl, rfl, h⟩)
    · rw [step_continue hs hctl] at h
      refine .inr (.inl ⟨rfl, rfl, ?_⟩)
      cases he : exec (decode s.d) s with
      | next t => rw [he] at h; exact ⟨t, rfl, h⟩
      | fault r => cases r
      | refused r => rw [he] at h; cases h
    · exact absurd hctl hc
  · rw [step_stopped hs] at h
    cases h
    exact .inl ⟨rfl, rfl⟩

/-- What phase 2 with a next state did: nothing, or one fetch. -/
theorem fetchPhase_next_cases {t u : State} (h : fetchPhase t = .next u) :
    (t.stopped = true ∧ u = t) ∨
    (t.ctl ≠ .Stop ∧ t.pc.toNat ≤ 65532 ∧
      u = (t.setLatches (t.mem.readWord t.pc.toNat) t.f).write pcSlot (t.pc + 4)) := by
  obtain ⟨hs, he⟩ | ⟨_, _, he⟩ | ⟨hc, hp, he⟩ := fetchPhase_cases t <;> rw [he] at h <;> cases h
  · exact .inl ⟨hs, rfl⟩
  · exact .inr ⟨hc, hp, rfl⟩

end Sys2Proof.Machine
end

