-- ==== Sys2Proof/Laws/Inversion.lean ====
section
/-! SUPPORT. What `exec` can answer, said once: if an instruction has a next state, it is one of the states
of `ExecCase`. Proofs about all instructions, and about steps, split on these cases instead of unfolding
the meanings. -/

namespace Sys2Proof.Machine

/-- The next states an instruction can have: Halt; a failing condition; a DataProcessing, a Multiply, a
load or a store that was executed; a reported transfer; a taken branch; a reported branch. -/
inductive ExecCase (i : Instr) (s : State) : State → Prop where
  | halt : i = .halt → ExecCase i s (s.setCtl .Stop)
  | failed (c : Cond) : i.cond? = some c → conditionPassed c s.flags = false →
      ExecCase i s (s.setCtl .Continue)
  | dataProcessing (c : Cond) (w : Bool) (op : Word → Word → AluOutput) (sf : Bool) (rn rd : Reg)
      (op2 : Operand2) : i.cond? = some c → conditionPassed c s.flags = true →
      i.variant = .DataProcessing → sBit i = sf → (w = true → mayWrite i = [slotOf rd]) →
      ExecCase i s (dataProcessingEffect Config.hardware w op sf rn rd op2 s)
  | multiply (c : Cond) (sf : Bool) (rd : Reg) (res : Word) : i.cond? = some c →
      conditionPassed c s.flags = true → i.variant = .Multiply → sBit i = sf →
      mayWrite i = [slotOf rd] → ExecCase i s (multiplyEffect Config.hardware sf rd res s)
  | load (c : Cond) (pre up : Bool) (rn rd : Reg) (off : Offset) : i = .ldr c pre up rn rd off →
      conditionPassed c s.flags = true → (effectiveAddress pre up rn off s).toNat ≤ 65532 →
      ExecCase i s ((loadWord rd (effectiveAddress pre up rn off s)
        (baseWrittenBack pre up rn off s)).setCtl .Continue)
  | store (c : Cond) (pre up : Bool) (rn rd : Reg) (off : Offset) : i = .str c pre up rn rd off →
      conditionPassed c s.flags = true → (effectiveAddress pre up rn off s).toNat ≤ 65532 →
      ExecCase i s ((storeWord rd (effectiveAddress pre up rn off s)
        (baseWrittenBack pre up rn off s)).setCtl .Continue)
  | transferReported (ea : Word) : i.variant = .SingleDataTransfer → inBounds ea = false →
      ExecCase i s (s.reportAndContinue (.DataAddressOutOfBounds ea))
  | taken (c : Cond) (offset : BitVec 24) : i = .b c offset → conditionPassed c s.flags = true →
      inBounds (branchTarget offset s) = true →
      ExecCase i s ((s.write pcSlot (branchTarget offset s)).setCtl .Skip)
  | branchReported (c : Cond) (offset : BitVec 24) : i = .b c offset →
      conditionPassed c s.flags = true → inBounds (branchTarget offset s) = false →
      ExecCase i s (s.reportAndContinue (.BranchTargetOutOfBounds (branchTarget offset s)))

theorem execCase_dataProcessing {i : Instr} {c : Cond} {w : Bool} {op : Word → Word → AluOutput} {sf : Bool}
    {rn rd : Reg} {op2 : Operand2} {s t : State}
    (h : dataProcessing Config.hardware w op c sf rn rd op2 s = .next t) (hc : i.cond? = some c)
    (hv : i.variant = .DataProcessing) (hs : sBit i = sf) (hw : w = true → mayWrite i = [slotOf rd]) :
    ExecCase i s t := by
  obtain ⟨hp, he⟩ | ⟨hp, he⟩ :=
    whenPassed_cases c s (.next (dataProcessingEffect Config.hardware w op sf rn rd op2 s))
  · have this := he.symm.trans h
    cases this
    exact .dataProcessing c w op sf rn rd op2 hc hp hv hs hw
  · have this := he.symm.trans h
    cases this
    exact .failed c hc hp

theorem execCase_multiply {i : Instr} {c : Cond} {sf : Bool} {rd : Reg} {res : Word} {s t : State}
    (h : whenPassed c s (.next (multiplyEffect Config.hardware sf rd res s)) = .next t)
    (hc : i.cond? = some c) (hv : i.variant = .Multiply) (hs : sBit i = sf)
    (hw : mayWrite i = [slotOf rd]) : ExecCase i s t := by
  obtain ⟨hp, he⟩ | ⟨hp, he⟩ :=
    whenPassed_cases c s (.next (multiplyEffect Config.hardware sf rd res s))
  · have this := he.symm.trans h
    cases this
    exact .multiply c sf rd res hc hp hv hs hw
  · have this := he.symm.trans h
    cases this
    exact .failed c hc hp

theorem execCase_reserved {i : Instr} {o : Opcode} {c : Cond} {s t : State}
    (h : reservedDataProcessing o c s = .next t) (hc : i.cond? = some c) : ExecCase i s t := by
  obtain ⟨hp, he⟩ | ⟨hp, he⟩ := whenPassed_cases c s (.refused (.reservedOpcode o))
  · have this := he.symm.trans h
    cases this
  · have this := he.symm.trans h
    cases this
    exact .failed c hc hp

theorem execCase_ldr {c : Cond} {pre up : Bool} {rn rd : Reg} {off : Offset} {s t : State}
    (h : execLdr c pre up rn rd off s = .next t) : ExecCase (.ldr c pre up rn rd off) s t := by
  obtain ⟨hp, he⟩ | ⟨hp, he⟩ :=
    whenPassed_cases c s (transfer Config.hardware loadWord pre up rn rd off s)
  · obtain ⟨ht, hx⟩ | ⟨ht, hx⟩ | ⟨ht, hx⟩ := transfer_cases loadWord pre up rn rd off s <;>
      have this := (he.trans hx).symm.trans h <;> cases this
    · exact .load c pre up rn rd off rfl hp ht
    · exact .transferReported _ rfl ht
  · have this := he.symm.trans h
    cases this
    exact .failed c rfl hp

theorem execCase_str {c : Cond} {pre up : Bool} {rn rd : Reg} {off : Offset} {s t : State}
    (h : execStr c pre up rn rd off s = .next t) : ExecCase (.str c pre up rn rd off) s t := by
  obtain ⟨hp, he⟩ | ⟨hp, he⟩ :=
    whenPassed_cases c s (transfer Config.hardware storeWord pre up rn rd off s)
  · obtain ⟨ht, hx⟩ | ⟨ht, hx⟩ | ⟨ht, hx⟩ := transfer_cases storeWord pre up rn rd off s <;>
      have this := (he.trans hx).symm.trans h <;> cases this
    · exact .store c pre up rn rd off rfl hp ht
    · exact .transferReported _ rfl ht
  · have this := he.symm.trans h
    cases this
    exact .failed c rfl hp

theorem execCase_b {c : Cond} {offset : BitVec 24} {s t : State} (h : execB c offset s = .next t) :
    ExecCase (.b c offset) s t := by
  obtain ⟨hp, he⟩ | ⟨hp, he⟩ := whenPassed_cases c s (.next (branchEffect offset s))
  · have this := he.symm.trans h
    obtain ⟨ht, hx⟩ | ⟨ht, hx⟩ := branchEffect_cases offset s <;> rw [hx] at this <;> cases this
    · exact .taken c offset rfl hp ht
    · exact .branchReported c offset rfl hp ht
  · have this := he.symm.trans h
    cases this
    exact .failed c rfl hp

/-- Every next state of an instruction is one of the cases. -/
theorem exec_next_cases {i : Instr} {s t : State} (h : exec i s = .next t) : ExecCase i s t := by
  cases i with
  | halt => cases h; exact .halt rfl
  | mul c sf rd rn rs rm => exact execCase_multiply h rfl rfl rfl rfl
  | mla c sf rd rn rs rm => exact execCase_multiply h rfl rfl rfl rfl
  | and c sf rn rd op2 => exact execCase_dataProcessing h rfl rfl rfl (fun _ => rfl)
  | eor c sf rn rd op2 => exact execCase_dataProcessing h rfl rfl rfl (fun _ => rfl)
  | sub c sf rn rd op2 => exact execCase_dataProcessing h rfl rfl rfl (fun _ => rfl)
  | rsb c sf rn rd op2 => exact execCase_dataProcessing h rfl rfl rfl (fun _ => rfl)
  | add c sf rn rd op2 => exact execCase_dataProcessing h rfl rfl rfl (fun _ => rfl)
  | tst c sf rn rd op2 => exact execCase_dataProcessing h rfl rfl rfl (fun e => by cases e)
  | teq c sf rn rd op2 => exact execCase_dataProcessing h rfl rfl rfl (fun e => by cases e)
  | cmp c sf rn rd op2 => exact execCase_dataProcessing h rfl rfl rfl (fun e => by cases e)
  | orr c sf rn rd op2 => exact execCase_dataProcessing h rfl rfl rfl (fun _ => rfl)
  | mov c sf rn rd op2 => exact execCase_dataProcessing h rfl rfl rfl (fun _ => rfl)
  | reserved0101 c sf rn rd op2 => exact execCase_reserved (o := .reserved0101) h rfl
  | reserved0110 c sf rn rd op2 => exact execCase_reserved (o := .reserved0110) h rfl
  | reserved0111 c sf rn rd op2 => exact execCase_reserved (o := .reserved0111) h rfl
  | reserved1011 c sf rn rd op2 => exact execCase_reserved (o := .reserved1011) h rfl
  | reserved1110 c sf rn rd op2 => exact execCase_reserved (o := .reserved1110) h rfl
  | reserved1111 c sf rn rd op2 => exact execCase_reserved (o := .reserved1111) h rfl
  | ldr c pre up rn rd off => exact execCase_ldr h
  | str c pre up rn rd off => exact execCase_str h
  | b c offset => exact execCase_b h

/-- No instruction touches the latches. -/
theorem exec_keeps_latches {i : Instr} {s t : State} (h : exec i s = .next t) : t.f = s.f ∧ t.d = s.d := by
  cases exec_next_cases h <;> simp [loadWord, storeWord]

/-- A loaded word is the word stored (R36, R37). -/
theorem Memory.readWord_writeWord_same {m : Memory} (hm : m.wf = true) {a : Nat} (v : Word)
    (ha : a ≤ 65532) : (m.writeWord a v).readWord a = v := by
  have h0 := Memory.read_writeWord_same hm v ha (k := 0) (by omega)
  have h1 := Memory.read_writeWord_same hm v ha (k := 1) (by omega)
  have h2 := Memory.read_writeWord_same hm v ha (k := 2) (by omega)
  have h3 := Memory.read_writeWord_same hm v ha (k := 3) (by omega)
  simp only [Memory.readWord, Nat.add_zero] at *
  rw [h0, h1, h2, h3, wordOfBytes_byteOfWord]

end Sys2Proof.Machine
end

