-- ==== Sys2Proof/Laws/PerInstr.lean ====
section
/-! SUPPORT. Statements made for all instructions, one lemma for each constructor. `EncodedVariant`: the
word of a well-formed instruction is classified as the instruction's own variant (R56, R78). -/

namespace Sys2Proof

/-- The class bits of an encoded DataProcessing word. -/
theorem field_encodeDataProcessing_class (o : Opcode) (c : Cond) (sf : Bool) (rn rd : Reg)
    (op2 : Operand2) : field (encodeDataProcessing o c sf rn rd op2) 26 2 = 0 := by
  simp (disch := omega) [encodeDataProcessing, field_place_disjoint]

/-- Bit 4 of an encoded register operand is written 0 (R67, decision D8). -/
theorem getLsbD_four_toBits (sr : ShiftedReg) : sr.toBits.getLsbD 4 = false := by
  simp only [ShiftedReg.toBits, BitVec.getLsbD_or, getLsbD_place]
  simp

/-- An encoded DataProcessing word is never a Multiply word. -/
theorem encodeDataProcessing_not_multiply (o : Opcode) (c : Cond) (sf : Bool) (rn rd : Reg)
    (op2 : Operand2) :
    ¬((encodeDataProcessing o c sf rn rd op2).getLsbD 25 = false ∧
      (encodeDataProcessing o c sf rn rd op2).getLsbD 7 = true ∧
      (encodeDataProcessing o c sf rn rd op2).getLsbD 4 = true) := by
  rintro ⟨h25, -, h4⟩
  have e25 : (encodeDataProcessing o c sf rn rd op2).getLsbD 25 = op2.immediateFlag := by
    simp only [encodeDataProcessing, BitVec.getLsbD_or, getLsbD_place]; simp
  have e4 : (encodeDataProcessing o c sf rn rd op2).getLsbD 4 = op2.toBits.getLsbD 4 := by
    simp only [encodeDataProcessing, BitVec.getLsbD_or, getLsbD_place]; simp
  rw [e25] at h25
  rw [e4] at h4
  cases op2 with
  | imm rot imm8 => cases h25
  | reg sr =>
    rw [show Operand2.toBits (.reg sr) = sr.toBits from rfl, getLsbD_four_toBits] at h4
    cases h4

/-- A non-zero encoded DataProcessing word is classified as DataProcessing (R56). -/
theorem classify_encodeDataProcessing {o : Opcode} {c : Cond} {sf : Bool} {rn rd : Reg}
    {op2 : Operand2} (h : encodeDataProcessing o c sf rn rd op2 ≠ 0) :
    classify (encodeDataProcessing o c sf rn rd op2) = .DataProcessing := by
  simp only [classify, h, if_false, field_encodeDataProcessing_class, if_true,
    encodeDataProcessing_not_multiply]

/-- The fields of an encoded DataProcessing word read back (R58). -/
theorem decodeDataProcessing_encode (o : Opcode) (c : Cond) (sf : Bool) (rn rd : Reg) (op2 : Operand2) :
    decodeDataProcessing (encodeDataProcessing o c sf rn rd op2) = o.instr c sf rn rd op2 := by
  have e25 : (encodeDataProcessing o c sf rn rd op2).getLsbD 25 = op2.immediateFlag := by
    simp only [encodeDataProcessing, BitVec.getLsbD_or, getLsbD_place]; simp
  have e20 : (encodeDataProcessing o c sf rn rd op2).getLsbD 20 = sf := by
    simp only [encodeDataProcessing, BitVec.getLsbD_or, getLsbD_place]; simp
  have e21 : field (encodeDataProcessing o c sf rn rd op2) 21 4 = o.toBits := by
    simp (disch := omega) [encodeDataProcessing, field_place_same, field_place_disjoint]
  have e28 : field (encodeDataProcessing o c sf rn rd op2) 28 4 = c.toBits := by
    simp (disch := omega) [encodeDataProcessing, field_place_same, field_place_disjoint]
  have e16 : field (encodeDataProcessing o c sf rn rd op2) 16 4 = Reg.toBits rn := by
    simp (disch := omega) [encodeDataProcessing, field_place_same, field_place_disjoint]
  have e12 : field (encodeDataProcessing o c sf rn rd op2) 12 4 = Reg.toBits rd := by
    simp (disch := omega) [encodeDataProcessing, field_place_same, field_place_disjoint]
  have e0 : field (encodeDataProcessing o c sf rn rd op2) 0 12 = op2.toBits := by
    simp (disch := omega) [encodeDataProcessing, field_place_same, field_place_disjoint]
  simp only [decodeDataProcessing, e25, e20, e21, e28, e16, e12, e0, Opcode.ofBits_toBits,
    Cond.ofBits_toBits, Reg.ofBits_toBits, Operand2.ofBits_toBits]

/-- The opcode field of an encoded DataProcessing word other than AND's keeps the word from being 0. -/
theorem encodeDataProcessing_ne_zero_of_opcode {o : Opcode} (ho : o ≠ .and) (c : Cond) (sf : Bool)
    (rn rd : Reg) (op2 : Operand2) : encodeDataProcessing o c sf rn rd op2 ≠ 0 := by
  intro h
  apply ho
  have e21 : field (encodeDataProcessing o c sf rn rd op2) 21 4 = o.toBits := by
    simp (disch := omega) [encodeDataProcessing, field_place_same, field_place_disjoint]
  have h0 : o.toBits = 0 := by rw [← e21, h]; rfl
  rw [← Opcode.ofBits_toBits o, h0]; rfl

/-- The only DataProcessing instruction whose word is 0 is the one of R57. -/
theorem encodeDataProcessing_and_ne_zero {c : Cond} {sf : Bool} {rn rd : Reg} {op2 : Operand2}
    (h : (Instr.and c sf rn rd op2).wellFormed = true) : encodeDataProcessing .and c sf rn rd op2 ≠ 0 := by
  intro h0
  have hd := decodeDataProcessing_encode .and c sf rn rd op2
  rw [h0] at hd
  have hz : decodeDataProcessing 0 = Instr.shadowedByHalt := by decide
  rw [hz] at hd
  simp only [Instr.wellFormed, decide_eq_true_eq] at h
  exact h hd.symm

end Sys2Proof

namespace Sys2Proof.Laws.EncodedVariant

open Sys2Proof

/-- The word of a well-formed instruction has the instruction's variant. -/
def Statement (i : Instr) : Prop := i.wellFormed = true → classify (encode i) = i.variant

theorem halt : Statement .halt := fun _ => rfl

theorem multiply (a : Bool) (c : Cond) (sf : Bool) (rd rn rs rm : Reg) :
    classify (encodeMultiply a c sf rd rn rs rm) = .Multiply := by
  have e26 : field (encodeMultiply a c sf rd rn rs rm) 26 2 = 0 := by
    simp (disch := omega) [encodeMultiply, field_place_disjoint]
  have e25 : (encodeMultiply a c sf rd rn rs rm).getLsbD 25 = false := by
    simp only [encodeMultiply, BitVec.getLsbD_or, getLsbD_place]; simp
  have e7 : (encodeMultiply a c sf rd rn rs rm).getLsbD 7 = true := by
    simp only [encodeMultiply, BitVec.getLsbD_or, getLsbD_place]; simp
  have e4 : (encodeMultiply a c sf rd rn rs rm).getLsbD 4 = true := by
    simp only [encodeMultiply, BitVec.getLsbD_or, getLsbD_place]; simp
  have e0 : encodeMultiply a c sf rd rn rs rm ≠ 0 := fun h => by simp [h] at e7
  rw [classify, if_neg e0, if_pos e26, if_pos ⟨e25, e7, e4⟩]

theorem mul (c : Cond) (sf : Bool) (rd rn rs rm : Reg) : Statement (.mul c sf rd rn rs rm) :=
  fun _ => multiply false c sf rd rn rs rm

theorem mla (c : Cond) (sf : Bool) (rd rn rs rm : Reg) : Statement (.mla c sf rd rn rs rm) :=
  fun _ => multiply true c sf rd rn rs rm

theorem and (c : Cond) (sf : Bool) (rn rd : Reg) (op2 : Operand2) : Statement (.and c sf rn rd op2) :=
  fun h => classify_encodeDataProcessing (encodeDataProcessing_and_ne_zero h)

theorem eor (c : Cond) (sf : Bool) (rn rd : Reg) (op2 : Operand2) : Statement (.eor c sf rn rd op2) :=
  fun _ => classify_encodeDataProcessing (encodeDataProcessing_ne_zero_of_opcode (by decide) c sf rn rd op2)

theorem sub (c : Cond) (sf : Bool) (rn rd : Reg) (op2 : Operand2) : Statement (.sub c sf rn rd op2) :=
  fun _ => classify_encodeDataProcessing (encodeDataProcessing_ne_zero_of_opcode (by decide) c sf rn rd op2)

theorem rsb (c : Cond) (sf : Bool) (rn rd : Reg) (op2 : Operand2) : Statement (.rsb c sf rn rd op2) :=
  fun _ => classify_encodeDataProcessing (encodeDataProcessing_ne_zero_of_opcode (by decide) c sf rn rd op2)

theorem add (c : Cond) (sf : Bool) (rn rd : Reg) (op2 : Operand2) : Statement (.add c sf rn rd op2) :=
  fun _ => classify_encodeDataProcessing (encodeDataProcessing_ne_zero_of_opcode (by decide) c sf rn rd op2)

theorem tst (c : Cond) (sf : Bool) (rn rd : Reg) (op2 : Operand2) : Statement (.tst c sf rn rd op2) :=
  fun _ => classify_encodeDataProcessing (encodeDataProcessing_ne_zero_of_opcode (by decide) c sf rn rd op2)

theorem teq (c : Cond) (sf : Bool) (rn rd : Reg) (op2 : Operand2) : Statement (.teq c sf rn rd op2) :=
  fun _ => classify_encodeDataProcessing (encodeDataProcessing_ne_zero_of_opcode (by decide) c sf rn rd op2)

theorem cmp (c : Cond) (sf : Bool) (rn rd : Reg) (op2 : Operand2) : Statement (.cmp c sf rn rd op2) :=
  fun _ => classify_encodeDataProcessing (encodeDataProcessing_ne_zero_of_opcode (by decide) c sf rn rd op2)

theorem orr (c : Cond) (sf : Bool) (rn rd : Reg) (op2 : Operand2) : Statement (.orr c sf rn rd op2) :=
  fun _ => classify_encodeDataProcessing (encodeDataProcessing_ne_zero_of_opcode (by decide) c sf rn rd op2)

theorem mov (c : Cond) (sf : Bool) (rn rd : Reg) (op2 : Operand2) : Statement (.mov c sf rn rd op2) :=
  fun _ => classify_encodeDataProcessing (encodeDataProcessing_ne_zero_of_opcode (by decide) c sf rn rd op2)

theorem reserved0101 (c : Cond) (sf : Bool) (rn rd : Reg) (op2 : Operand2) :
    Statement (.reserved0101 c sf rn rd op2) :=
  fun _ => classify_encodeDataProcessing (encodeDataProcessing_ne_zero_of_opcode (by decide) c sf rn rd op2)

theorem reserved0110 (c : Cond) (sf : Bool) (rn rd : Reg) (op2 : Operand2) :
    Statement (.reserved0110 c sf rn rd op2) :=
  fun _ => classify_encodeDataProcessing (encodeDataProcessing_ne_zero_of_opcode (by decide) c sf rn rd op2)

theorem reserved0111 (c : Cond) (sf : Bool) (rn rd : Reg) (op2 : Operand2) :
    Statement (.reserved0111 c sf rn rd op2) :=
  fun _ => classify_encodeDataProcessing (encodeDataProcessing_ne_zero_of_opcode (by decide) c sf rn rd op2)

theorem reserved1011 (c : Cond) (sf : Bool) (rn rd : Reg) (op2 : Operand2) :
    Statement (.reserved1011 c sf rn rd op2) :=
  fun _ => classify_encodeDataProcessing (encodeDataProcessing_ne_zero_of_opcode (by decide) c sf rn rd op2)

theorem reserved1110 (c : Cond) (sf : Bool) (rn rd : Reg) (op2 : Operand2) :
    Statement (.reserved1110 c sf rn rd op2) :=
  fun _ => classify_encodeDataProcessing (encodeDataProcessing_ne_zero_of_opcode (by decide) c sf rn rd op2)

theorem reserved1111 (c : Cond) (sf : Bool) (rn rd : Reg) (op2 : Operand2) :
    Statement (.reserved1111 c sf rn rd op2) :=
  fun _ => classify_encodeDataProcessing (encodeDataProcessing_ne_zero_of_opcode (by decide) c sf rn rd op2)

theorem transfer (l : Bool) (c : Cond) (pre up : Bool) (rn rd : Reg) (off : Offset) :
    classify (encodeTransfer l c pre up rn rd off) = .SingleDataTransfer := by
  have e26 : field (encodeTransfer l c pre up rn rd off) 26 2 = 1 := by
    simp (disch := omega) [encodeTransfer, field_place_same, field_place_disjoint]
  have e0 : encodeTransfer l c pre up rn rd off ≠ 0 := fun h => by rw [h] at e26; cases e26
  rw [classify, if_neg e0, e26, if_neg (by decide), if_pos rfl]

theorem ldr (c : Cond) (pre up : Bool) (rn rd : Reg) (off : Offset) : Statement (.ldr c pre up rn rd off) :=
  fun _ => transfer true c pre up rn rd off

theorem str (c : Cond) (pre up : Bool) (rn rd : Reg) (off : Offset) : Statement (.str c pre up rn rd off) :=
  fun _ => transfer false c pre up rn rd off

theorem b (c : Cond) (offset : BitVec 24) : Statement (.b c offset) := by
  intro _
  have e27 : (encodeBranch c offset).getLsbD 27 = true := by
    simp only [encodeBranch, BitVec.getLsbD_or, getLsbD_place]; simp
  have e26 : field (encodeBranch c offset) 26 2 = 2 := by
    apply BitVec.eq_of_getLsbD_eq
    intro i hi
    have hi' : i = 0 ∨ i = 1 := by omega
    obtain rfl | rfl := hi' <;>
      simp only [getLsbD_field, encodeBranch, BitVec.getLsbD_or, getLsbD_place] <;> simp
  have e0 : encodeBranch c offset ≠ 0 := fun h => by simp [h] at e27
  show classify (encodeBranch c offset) = .Branch
  rw [classify, if_neg e0, e26, if_neg (by decide), if_neg (by decide), if_pos rfl]

end Sys2Proof.Laws.EncodedVariant
end

