-- ==== Sys2Proof/Tests/Slice0.lean ====
section
/-! SUPPORT. Tests of single operations and single steps, and for every statement with hypotheses a concrete
state and operands that meet them together. The words of the decode tests are written out field by field
from the opcode table's encodings; the expected values are those of 95_test_vectors.md. -/

namespace Sys2Proof.Tests

open Sys2Proof Sys2Proof.Machine

/-! ## Well-formedness -/

theorem test_shadowed_record_refused : Instr.shadowedByHalt.wellFormed = false := by decide

theorem test_neighbour_accepted : (Instr.and .eq false 0 0 (.reg ⟨1, .lsl, 0⟩)).wellFormed = true := by
  decide

/-! ## Decoding: one word for each constructor, from bit 31 down -/

theorem test_decode_halt : decode 0b0000_0000_0000_0000_0000_0000_0000_0000 = .halt := by decide

theorem test_decode_halt_class : decode 0b1111_11_00000000000000000000000001 = .halt := by decide

theorem test_decode_mul :
    decode 0b1110_000_000_0_1_0011_0100_0010_1_00_1_0001 = .mul .al true 3 4 2 1 := by decide

theorem test_decode_mla :
    decode 0b0001_000_000_1_0_0100_0011_0010_1_00_1_0001 = .mla .ne false 4 3 2 1 := by decide

theorem test_decode_and :
    decode 0b1110_00_0_0000_0_0000_0010_00011_01_0_0001 = .and .al false 0 2 (.reg ⟨3, .lsr, 1⟩) := by
  decide

theorem test_decode_eor :
    decode 0b0001_00_1_0001_1_0100_0101_0110_01111000 = .eor .ne true 4 5 (.imm 6 0x78) := by decide

theorem test_decode_sub :
    decode 0b1010_00_1_0010_0_0001_1001_0000_00000001 = .sub .ge false 1 9 (.imm 0 1) := by decide

theorem test_decode_rsb :
    decode 0b1011_00_1_0011_1_0010_0011_0000_00000000 = .rsb .lt true 2 3 (.imm 0 0) := by decide

theorem test_decode_add :
    decode 0b1110_00_0_0100_0_0000_0000_11111_11_0_1111 = .add .al false 0 0 (.reg ⟨31, .ror, 15⟩) := by
  decide

theorem test_decode_tst :
    decode 0b1100_00_1_1000_1_0001_0000_0000_00000001 = .tst .gt true 1 0 (.imm 0 1) := by decide

theorem test_decode_teq :
    decode 0b1101_00_0_1001_1_0001_0000_00000_10_0_0010 = .teq .le true 1 0 (.reg ⟨0, .asr, 2⟩) := by
  decide

theorem test_decode_cmp :
    decode 0b1110_00_1_1010_1_0001_0101_0000_00000000 = .cmp .al true 1 5 (.imm 0 0) := by decide

theorem test_decode_orr :
    decode 0b1110_00_1_1100_0_0000_0010_1111_11111111 = .orr .al false 0 2 (.imm 15 0xFF) := by decide

theorem test_decode_mov :
    decode 0b1110_00_0_1101_1_0111_0010_11111_00_0_0001 = .mov .al true 7 2 (.reg ⟨31, .lsl, 1⟩) := by
  decide

theorem test_decode_reserved0101 :
    decode 0b1110_00_1_0101_0_0000_0010_0000_00000001 = .reserved0101 .al false 0 2 (.imm 0 1) := by decide

theorem test_decode_reserved0110 :
    decode 0b1110_00_1_0110_0_0000_0010_0000_00000001 = .reserved0110 .al false 0 2 (.imm 0 1) := by decide

theorem test_decode_reserved0111 :
    decode 0b1110_00_1_0111_0_0000_0010_0000_00000001 = .reserved0111 .al false 0 2 (.imm 0 1) := by decide

theorem test_decode_reserved1011 :
    decode 0b1110_00_1_1011_0_0000_0010_0000_00000001 = .reserved1011 .al false 0 2 (.imm 0 1) := by decide

theorem test_decode_reserved1110 :
    decode 0b1110_00_1_1110_0_0000_0010_0000_00000001 = .reserved1110 .al false 0 2 (.imm 0 1) := by decide

theorem test_decode_reserved1111 :
    decode 0b1110_00_1_1111_0_0000_0010_0000_00000001 = .reserved1111 .al false 0 2 (.imm 0 1) := by decide

theorem test_decode_ldr :
    decode 0b1110_01_1_0_1_00_1_0001_0000_00001_01_0_0010 =
      .ldr .al false true 1 0 (.reg ⟨1, .lsr, 2⟩) := by decide

theorem test_decode_str :
    decode 0b1110_01_0_1_0_00_0_0001_1111_100000000010 = .str .al true false 1 15 (.imm 0x802) := by decide

theorem test_decode_b : decode 0b0001_1010_111111111111111111111011 = .b .ne 0xFFFFFB := by decide

/-- Bits 7 and 4 with bit 25 clear make a Multiply, whatever the opcode field (95_test_vectors.md section
4.2, the word `E1A02091`). -/
theorem test_decode_multiply_before_mov : decode 0xE1A02091 = .mla .al false 0 2 0 1 := by decide

/-- The bits the decoder ignores (95_test_vectors.md section 2). -/
theorem test_reencode_canonical :
    [0xE1C302F1, 0xE1A02091, 0xE5F10000, 0xE9000002, 0xEF000000, 0x0C000000].map
      (fun w => encode (decode w)) =
    [0xE0030291, 0xE0202091, 0xE5910000, 0xEA000002, 0x00000000, 0x00000000] := by decide

theorem test_decodeTableWord : decodeTableWord 32 0xE7910102 = some (.ldr .al true true 1 0
    (.reg ⟨2, .lsl, 2⟩)) ∧ decodeTableWord 32 0 = some .halt := by decide

theorem test_decodeBytes : decodeBytes [0x01, 0x00, 0xA0, 0xE3, 0x77] =
    .ok (.mov .al false 0 0 (.imm 0 1), [0x77]) := rfl

theorem test_decodeBytes_truncated : decodeBytes [0x01, 0x00, 0xA0] = .error (.truncated 3) := rfl

/-! ## One instruction: phase 1 of a cycle with `pc = 00000108` -/

/-- The common set-up of 95_test_vectors.md section 4. -/
def base : State := (State.reset.setCtl .Continue).write pcSlot 0x108

/-- The set-up with some slots written. -/
def withSlots (l : List (Slot × Word)) : State := l.foldl (fun s p => s.write p.1 p.2) base

/-- Phase 1 for a word, seen through `f`. -/
def after {α : Type} (w : Word) (s : State) (f : State → α) : Option α := (nextOf (exec (decode w) s)).map f

theorem test_and_zero : after 0xE0102001 (withSlots [(0, 0xF0F0F0F0), (1, 0x0F0F0F0F), (2, 0xAAAAAAAA),
    (16, 0xA0000000)]) (fun t => (t.read 2, t.cpsr)) = some (0, 0x60000000) := by decide

theorem test_eor_negative : after 0xE0302001 (withSlots [(0, 0xFFFF0000), (1, 0x00FFFF00),
    (16, 0x40000000)]) (fun t => (t.read 2, t.cpsr)) = some (0xFF00FF00, 0x80000000) := by decide

theorem test_sub_borrow : after 0xE0502001 (withSlots [(0, 3), (1, 5), (16, 0x20000000)])
    (fun t => (t.read 2, t.cpsr)) = some (0xFFFFFFFE, 0x80000000) := by decide

theorem test_sub_signed_overflow_keeps_v : after 0xE0502001 (withSlots [(0, 0x80000000), (1, 1)])
    (fun t => (t.read 2, t.cpsr)) = some (0x7FFFFFFF, 0x20000000) := by decide

theorem test_rsb_no_borrow : after 0xE270200A (withSlots [(0, 3)]) (fun t => (t.read 2, t.cpsr)) =
    some (7, 0x20000000) := by decide

theorem test_add_carry : after 0xE0902001 (withSlots [(0, 0xFFFFFFFF), (1, 1), (2, 0xAAAAAAAA)])
    (fun t => (t.read 2, t.cpsr)) = some (0, 0x60000000) := by decide

theorem test_add_reads_pc : after 0xE28F2004 base (fun t => (t.read 2, t.pc)) = some (0x10C, 0x108) := by
  decide

theorem test_tst_left_shift_carry : after 0xE1100081 (withSlots [(0, 4), (1, 2)])
    (fun t => (t.read 0, t.cpsr)) = some (4, 0x20000000) := by decide

theorem test_teq_equal : after 0xE1300001 (withSlots [(0, 0x1234), (1, 0x1234)])
    (fun t => (t.read 0, t.cpsr)) = some (0x1234, 0x40000000) := by decide

theorem test_cmp_ignores_rd : after 0xE3505000 (withSlots [(5, 0xAA)]) (fun t => (t.read 5, t.cpsr)) =
    some (0xAA, 0x60000000) := by decide

theorem test_cmp_less : after 0xE1500001 (withSlots [(0, 1), (1, 2), (16, 0x60000000)])
    (fun t => t.cpsr) = some 0x80000000 := by decide

theorem test_orr : after 0xE1802001 (withSlots [(0, 0xF0), (1, 0x0F)]) (fun t => (t.read 2, t.cpsr)) =
    some (0xFF, 0) := by decide

theorem test_mov_shifter_carry : after 0xE1B02081 (withSlots [(1, 0x80000000), (2, 0xAAAAAAAA)])
    (fun t => (t.read 2, t.cpsr)) = some (0, 0x40000000) := by decide

theorem test_mov_rotated_immediate : after 0xE3B02102 (withSlots [(16, 0x20000000)])
    (fun t => (t.read 2, t.cpsr)) = some (0x80000000, 0xA0000000) := by decide

theorem test_reserved_opcode_refused : nextOf (exec (decode 0xE2A02001) base) = none := by decide

theorem test_reserved_opcode_failed_condition : nextOf (exec (decode 0x02A02001) base) = some base := by
  decide

theorem test_mul_negative_keeps_z : after 0xE0130291 (withSlots [(1, 0xFFFFFFFF), (2, 1),
    (16, 0x40000000)]) (fun t => (t.read 3, t.cpsr)) = some (0xFFFFFFFF, 0xC0000000) := by decide

theorem test_mul_truncates : after 0xE0030291 (withSlots [(1, 0x10000), (2, 0x10000), (3, 0xAAAAAAAA),
    (16, 0x80000000)]) (fun t => (t.read 3, t.cpsr)) = some (0, 0x80000000) := by decide

theorem test_mla : after 0xE0234291 (withSlots [(1, 3), (2, 7), (4, 0x64)]) (fun t => (t.read 3, t.cpsr)) =
    some (0x79, 0) := by decide

theorem test_ldr_unaligned : after 0xE5910001 ((withSlots [(1, 0x200)]).setMem
    ((Memory.empty.writeWord 0x200 0x44332211).writeWord 0x204 0x88776655)) (fun t => t.read 0) =
    some 0x55443322 := by decide

theorem test_ldr_post_indexed_same_register : after 0xE4911004 ((withSlots [(1, 0x200)]).setMem
    (Memory.empty.writeWord 0x200 0x99)) (fun t => t.read 1) = some 0x99 := by decide

theorem test_str_stores_pc : after 0xE581F000 (withSlots [(1, 0x300)])
    (fun t => (t.mem.read 0x300, t.mem.read 0x301)) = some (0x08, 0x01) := by decide

theorem test_str_post_indexed_same_register : after 0xE4811004 (withSlots [(1, 0x300)])
    (fun t => (t.read 1, t.mem.readWord 0x300)) = some (0x304, 0x304) := by decide

theorem test_b_to_self : after 0xEAFFFFFE base (fun t => (t.pc, t.ctl)) = some (0x100, .Skip) := by decide

theorem test_b_out_of_bounds : after 0xEA003FBE base (fun t => (t.pc, t.ctl, t.reports)) =
    some (0x108, .Continue, [.BranchTargetOutOfBounds 0x10000]) := by decide

theorem test_halt : after 0xFC000001 base (fun t => (t.pc, t.ctl)) = some (0x108, .Stop) := by decide

/-! ## Reset, loading and the placing of one instruction -/

theorem test_reset_first_step : (nextOf (step State.reset)).map (fun t => (t.ctl, t.d, t.f, t.pc)) =
    some (.Continue, 0, 0, 8) := by decide

/-- Placing a word at reset gives what the first cycle after loading that word as an image gives. -/
theorem test_withFetchWord_is_the_load :
    nextOf (step (State.afterReset (Memory.ofImage [0x01, 0x00, 0xA0, 0xE3]))) =
      some (State.reset.withFetchWord 32 0xE3A00001) := by decide

theorem test_withFetchWord_runs : (nextOf (step (State.reset.withFetchWord 32 0xE3A00001))).map
    (fun t => (t.read 0, t.pc)) = some (1, 12) := by decide

theorem test_result_only_when_stopped : State.reset.result = none ∧
    (nextOf (step (State.reset.withFetchWord 32 0))).bind State.result =
      some ⟨State.reset.regs.set 15 8, Memory.empty, []⟩ := by decide

theorem test_image_too_long : State.load (List.replicate 65537 0) = none := by
  rw [State.load, if_neg (by rw [List.length_replicate]; decide)]

theorem test_legalize : legalizeImmediate 0x000003F0 = some (.imm 14 0x3F) ∧
    legalizeImmediate 0xC000003F = some (.imm 1 0xFF) ∧ legalizeImmediate 0x101 = none := by decide

theorem test_branchOffsetField : branchOffsetField 0 8 = 0xFFFFFC := by decide

/-! ## Witnesses: what the statements assume can be met -/

/-- A state about to execute `w`, with `pc` at `p`. -/
def running (w p : Word) (l : List (Slot × Word)) : State :=
  ((withSlots l).write pcSlot p).setLatches 0xE3A00001 w

theorem witness_FourBytesAreOneInstruction :
    4 ≤ [(1 : Byte), 2, 3, 4].length ∧ [(1 : Byte), 2, 3].length < 4 ∧ ([] : List Byte).length < 4 := by decide

theorem witness_DecodeEncodeRoundTrip :
    (Instr.and .eq false 0 0 (.reg ⟨0, .lsr, 0⟩)).wellFormed = true ∧ Instr.halt.wellFormed = true := by
  decide

theorem witness_IgnoredBitsChangeNothing :
    (IsMultiplyWord 0xE1C302F1 ∧ (0xE1C302F1 : Word) &&& 0xFE3FFF9F = 0xE0030291 &&& 0xFE3FFF9F) ∧
    (field (0xE5F10000 : Word) 26 2 = 1 ∧
      (0xE5F10000 : Word) &&& 0xFF9FFFFF = 0xE5910000 &&& 0xFF9FFFFF) ∧
    (field (0xE9000002 : Word) 26 2 = 2 ∧
      (0xE9000002 : Word) &&& 0xFCFFFFFF = 0xEA000002 &&& 0xFCFFFFFF) ∧
    (field (0xFC000001 : Word) 26 2 = 3 ∧
      (0xFC000001 : Word) &&& 0x0C000000 = 0x0C000000 &&& 0x0C000000) ∧
    (IsDataProcessingWord 0xE1A02111 ∧ IsDataProcessingWord 0xE1A02101 ∧
      (0xE1A02111 : Word).getLsbD 25 = false ∧
      (0xE1A02111 : Word) &&& 0xFFFFFFEF = 0xE1A02101 &&& 0xFFFFFFEF) ∧
    field (0xE7910112 : Word) 26 2 = 1 ∧ (0xE7910112 : Word).getLsbD 25 = true ∧
      (0xE7910112 : Word) &&& 0xFFFFFFEF = 0xE7910102 &&& 0xFFFFFFEF := by
  unfold IsMultiplyWord IsDataProcessingWord; decide

theorem witness_FailedConditionIsNoOp :
    ((Instr.b .ne 0).cond? = some .ne ∧ conditionPassed .ne (withSlots [(16, 0x40000000)]).flags = false) ∧
    (2 ≤ (2 : BitVec 4).toNat ∧ (9 : BitVec 4).toNat ≤ 9 ∧ (15 : BitVec 4).toNat = 15) := by decide

theorem witness_ShifterResults : (1 ≤ 1 ∧ 1 ≤ 31) ∧ 1 ≤ 31 ∧ 31 ≤ 31 := by decide

theorem witness_RotatedImmediate : 0 < 32 ∧ 31 < 32 := by decide

theorem witness_ShifterCarryIsIndexedBit :
    (∃ t, exec (.ldr .al true true 1 0 (.imm 0)) base = .next t) ∧
    ∃ t, exec (.str .al false true 1 0 (.reg ⟨1, .lsl, 1⟩)) base = .next t := ⟨⟨_, rfl⟩, ⟨_, rfl⟩⟩

/-- One word for each DataProcessing opcode, and a condition that passes. -/
theorem witness_DataProcessing_rules :
    (∀ p ∈ [((0xE0002001 : Word), (0 : BitVec 4)), (0xE0202001, 1), (0xE0402001, 2), (0xE0602001, 3),
        (0xE0802001, 4), (0xE1102001, 8), (0xE1302001, 9), (0xE1502001, 10), (0xE1802001, 12),
        (0xE1A02001, 13)],
      IsDataProcessingWord p.1 ∧ field p.1 21 4 = p.2) ∧ conditionPassed .al base.flags = true := by
  refine ⟨?_, by decide⟩
  intro p hp
  simp only [List.mem_cons, List.not_mem_nil, or_false] at hp
  rcases hp with rfl | rfl | rfl | rfl | rfl | rfl | rfl | rfl | rfl | rfl <;>
    exact ⟨⟨by decide, by decide, by decide⟩, by decide⟩

theorem witness_ReservedOpcodes :
    (∀ p ∈ [((0xE2A02001 : Word), (5 : BitVec 4)), (0xE2C02001, 6), (0xE2E02001, 7), (0xE3602001, 11),
        (0xE3C02001, 14), (0xE3E02001, 15)],
      IsDataProcessingWord p.1 ∧ field p.1 21 4 = p.2) ∧
    conditionPassed .al base.flags = true ∧ conditionPassed .eq base.flags = false := by
  refine ⟨?_, by decide⟩
  intro p hp
  simp only [List.mem_cons, List.not_mem_nil, or_false] at hp
  rcases hp with rfl | rfl | rfl | rfl | rfl | rfl <;>
    exact ⟨⟨by decide, by decide, by decide⟩, by decide⟩

theorem witness_FlagsChangeOnlyWithS :
    ∃ t, exec (.mov .al true 0 0 (.imm 0 0)) base = .next t ∧ t.cpsr ≠ base.cpsr := ⟨_, rfl, by decide⟩

theorem witness_OnlyNamedSlotsWritten :
    ∃ t, exec (.ldr .al false true 1 0 (.imm 4)) base = .next t ∧
      (2 : Slot) ∉ mayWrite (.ldr .al false true 1 0 (.imm 4)) ∧ (2 : Slot) ≠ cpsrSlot :=
  ⟨_, rfl, by decide⟩

theorem witness_Multiply_rules :
    IsMultiplyWord 0xE0030291 ∧ (0xE0030291 : Word).getLsbD 21 = false ∧
    IsMultiplyWord 0xE0234291 ∧ (0xE0234291 : Word).getLsbD 21 = true ∧
    conditionPassed .al base.flags = true := by
  unfold IsMultiplyWord; decide

theorem witness_MultiplyFlagTable :
    (0x80000000 : Word).getLsbD 31 = true ∧ (1 : Word).getLsbD 31 = false ∧ (1 : Word) ≠ 0 := by decide

theorem witness_Transfer_words :
    field (0xE5910000 : Word) 26 2 = 1 ∧ (0xE5910000 : Word).getLsbD 20 = true ∧
    field (0xE5810000 : Word) 26 2 = 1 ∧ (0xE5810000 : Word).getLsbD 20 = false := by decide

/-- Both ends of each range of the effective address, pre-indexed and post-indexed. -/
theorem witness_Transfer_ranges :
    conditionPassed .al (withSlots [(1, 65532)]).flags = true ∧
    (effectiveAddress true true 1 (.imm 0) (withSlots [(1, 65532)])).toNat = 65532 ∧
    (effectiveAddress false true 1 (.imm 4) (withSlots [(1, 65532)])).toNat = 65532 ∧
    (effectiveAddress true true 1 (.imm 1) (withSlots [(1, 65532)])).toNat = 65533 ∧
    (effectiveAddress true true 1 (.imm 3) (withSlots [(1, 65532)])).toNat = 65535 ∧
    (effectiveAddress true true 1 (.imm 4) (withSlots [(1, 65532)])).toNat = 65536 ∧
    (effectiveAddress true false 1 (.imm 1) (withSlots [(1, 0)])).toNat = 4294967295 ∧
    (withSlots [(1, 65532)]).mem.wf = true := by decide

theorem witness_OutOfBoundsTransferOnlyReports :
    65536 ≤ ((withSlots [(1, 65536)]).read (slotOf 1)).toNat ∧
    65536 ≤ (effectiveAddress false true 1 (.imm 4) (withSlots [(1, 65536)])).toNat ∧
    conditionPassed .al (withSlots [(1, 65536)]).flags = true := by decide

theorem witness_BaseEqualsDataRegister :
    conditionPassed .al (withSlots [(1, 65532)]).flags = true ∧ (withSlots [(1, 65532)]).mem.wf = true ∧
    (effectiveAddress true true 1 (.imm 0) (withSlots [(1, 65532)])).toNat ≤ 65532 ∧
    ((withSlots [(1, 65532)]).read (slotOf 1)).toNat ≤ 65532 := by decide

theorem witness_LittleEndianWords : (65532 : Nat) ≤ 65532 ∧ Memory.empty.wf = true ∧
    (Memory.empty.writeWord 65532 0xDEADBEEF).readWord 65532 = 0xDEADBEEF := by decide

theorem witness_LoadAfterStoreReturnsWord :
    ∃ t u, (withSlots [(1, 65532), (2, 65528)]).mem.wf = true ∧
      conditionPassed .al (withSlots [(1, 65532), (2, 65528)]).flags = true ∧
      (effectiveAddress false true 1 (.imm 4) (withSlots [(1, 65532), (2, 65528)])).toNat ≤ 65532 ∧
      exec (.str .al false true 1 1 (.imm 4)) (withSlots [(1, 65532), (2, 65528)]) = .next t ∧
      conditionPassed .al t.flags = true ∧
      effectiveAddress true true 2 (.imm 4) t =
        effectiveAddress false true 1 (.imm 4) (withSlots [(1, 65532), (2, 65528)]) ∧
      exec (.ldr .al true true 2 3 (.imm 4)) t = .next u :=
  ⟨_, _, by decide, by decide, by decide, rfl, by decide, by decide, rfl⟩

/-- Both ends of the range of a target: 65535 is the last byte of memory, 65536 lies outside. -/
theorem witness_BranchRule :
    field (0xEA000000 : Word) 26 2 = 2 ∧ conditionPassed .eq base.flags = false ∧
    conditionPassed .al base.flags = true ∧
    ((running 0 65535 []).pc + branchDelta 0).toNat = 65535 ∧
    ((running 0 65532 []).pc + branchDelta 1).toNat = 65536 := by decide

theorem witness_BranchTestIsExact : (running 0 65535 []).pc.toNat < 65536 ∧
    inBounds (branchTarget 0 (running 0 65535 [])) = true ∧
    inBounds (branchTarget 0xFFFFFF (running 0 0 [])) = false := by decide

theorem witness_StepRunsDecodedInstruction :
    ((running 0xE3A00001 65535 []).stopped = false ∧ (running 0xE3A00001 65535 []).ctl = .Continue ∧
      decode (running 0xE3A00001 65535 []).d = .mov .al false 0 0 (.imm 0 1) ∧
      (∃ t, exec (.mov .al false 0 0 (.imm 0 1)) (running 0xE3A00001 65535 []) = .next t)) ∧
    (∃ r, exec (decode 0xE2A02001) (running 0xE2A02001 8 []) = .refused r) ∧
    (State.reset.stopped = false ∧ State.reset.ctl = .Skip) ∧
    (running 0 65536 []).stopped = true ∧ (base.setCtl .Stop).stopped = true :=
  ⟨⟨by decide, by decide, by decide, ⟨_, rfl⟩⟩, ⟨_, rfl⟩, by decide, by decide, by decide⟩

theorem witness_FetchPhaseRule :
    (base.setCtl .Stop).ctl = .Stop ∧ (running 0 65536 []).pc.toNat = 65536 ∧ base.ctl ≠ .Stop ∧
    (running 0 65533 []).pc.toNat = 65533 ∧ (running 0 65535 []).pc.toNat = 65535 ∧
    (running 0 65532 []).pc.toNat = 65532 ∧ (running 0 65532 []).ctl ≠ .Stop := by decide

theorem witness_SkipDiscardsAnyWord :
    ((running 0 65532 []).setCtl .Skip).ctl = .Skip ∧
    ((running 0 65532 []).setCtl .Skip).pc.toNat ≤ 65532 ∧
    ((running 0 65535 []).setCtl .Skip).pc.toNat < 65536 := by decide

theorem witness_OutcomeOfExecute :
    (∃ t, exec .halt base = .next t ∧ t.ctl = .Stop) ∧
    (∃ t, exec (.b .al 0) base = .next t ∧ t.ctl = .Skip) ∧
    ∃ t, exec (.b .eq 0) base = .next t ∧ t.ctl = .Continue :=
  ⟨⟨_, rfl, by decide⟩, ⟨_, rfl, by decide⟩, ⟨_, rfl, by decide⟩⟩

theorem witness_HaltRule :
    (running 0 65535 []).ctl = .Continue ∧ (running 0 65535 []).pc.toNat < 65536 ∧
    decode (running 0 65535 []).d = .halt := by decide

theorem witness_StoppedCoreStays : (base.setCtl .Stop).stopped = true ∧
    (running 0 65536 []).stopped = true := by decide

/-- Branches to 65524, 65528 and 65532. -/
theorem witness_TakenBranch :
    (running 0xEA000000 65524 []).ctl = .Continue ∧ (running 0xEA000000 65524 []).pc.toNat < 65536 ∧
    decode (running 0xEA000000 65524 []).d = .b .al 0 ∧
    conditionPassed .al (running 0xEA000000 65524 []).flags = true ∧
    ((running 0xEA000000 65524 []).pc + branchDelta 0).toNat = 65524 ∧
    ((running 0xEA000000 65528 []).pc + branchDelta 0).toNat = 65528 ∧
    ((running 0xEA000000 65532 []).pc + branchDelta 0).toNat = 65532 := by decide

/-- `mov pc, r1` (`E1A0F001`) leaving 65536, 65533, 65535, 65532 and 65528; after the last the word in the
fetch latch, `mov r0, #1`, leaves `pc` alone. -/
theorem witness_PcWriteHasOneDelaySlot :
    (running 0xE1A0F001 8 [(1, 65536)]).stopped = false ∧
    (running 0xE1A0F001 8 [(1, 65536)]).ctl = .Continue ∧
    (∀ p ∈ [(65536 : Word), 65533, 65535, 65532, 65528], after 0xE1A0F001 (running 0xE1A0F001 8 [(1, p)])
      (fun t => (t.pc, t.ctl)) = some (p, .Continue)) ∧
    ∃ u v, step (running 0xE1A0F001 8 [(1, 65528)]) = .next u ∧ exec (decode 0xE3A00001) u = .next v ∧
      v.ctl = .Continue ∧ v.pc = u.pc := by
  refine ⟨by decide, by decide, ?_, _, _, rfl, rfl, by decide, by decide⟩
  intro p hp
  simp only [List.mem_cons, List.not_mem_nil, or_false] at hp
  rcases hp with rfl | rfl | rfl | rfl | rfl <;> decide

/-- A store to the very address the cycle fetches, at the top of memory; and a post-indexed store on slot
15, which moves the fetch to its moved base. -/
theorem witness_StoreSeenByLaterFetchOnly :
    ((running 0xE5810000 65532 [(1, 65532)]).ctl = .Continue ∧
    (running 0xE5810000 65532 [(1, 65532)]).pc.toNat ≤ 65532 ∧
    decode (running 0xE5810000 65532 [(1, 65532)]).d = .str .al true true 1 0 (.imm 0) ∧
    conditionPassed .al (running 0xE5810000 65532 [(1, 65532)]).flags = true ∧
    (effectiveAddress true true 1 (.imm 0) (running 0xE5810000 65532 [(1, 65532)])).toNat ≤ 65532 ∧
    slotOf 1 ≠ pcSlot ∧ (running 0xE5810000 65532 [(1, 65532)]).mem.wf = true ∧
    effectiveAddress true true 1 (.imm 0) (running 0xE5810000 65532 [(1, 65532)]) =
      (running 0xE5810000 65532 [(1, 65532)]).pc) ∧
    ((running 0xE48F0004 65528 []).ctl = .Continue ∧ (running 0xE48F0004 65528 []).pc.toNat < 65536 ∧
    decode (running 0xE48F0004 65528 []).d = .str .al false true 15 0 (.imm 4) ∧
    conditionPassed .al (running 0xE48F0004 65528 []).flags = true ∧
    (effectiveAddress false true 15 (.imm 4) (running 0xE48F0004 65528 [])).toNat ≤ 65532 ∧
    slotOf 15 = pcSlot ∧ (running 0xE48F0004 65528 []).mem.wf = true ∧
    indexedBase true 15 (.imm 4) (running 0xE48F0004 65528 []) = 65532) := by decide

theorem inv_reset : Inv State.reset := ⟨by decide, by decide, fun r hr => by cases hr⟩

theorem witness_StepKeepsInvariant : ∃ t, Inv State.reset ∧ step State.reset = .next t :=
  ⟨_, inv_reset, rfl⟩

theorem witness_InvariantAtReset : ∃ s, State.load [0x01, 0x00, 0xA0, 0xE3] = some s := ⟨_, rfl⟩

theorem witness_LowFlagBitsNeverWritten :
    ∃ t, step (running 0xE3B02102 8 [(16, 0x3FFFFFFF)]) = .next t ∧ t.cpsr = 0xBFFFFFFF :=
  ⟨_, rfl, by decide⟩

/-- Two different states that agree on everything but C, before a step with a next state and before one
that is refused. -/
theorem witness_CarryIsNeverRead :
    (∀ w : Word, AgreeButC (running w 8 []) (running w 8 [(16, 0x20000000)])) ∧
    running 0xE3A00001 8 [] ≠ running 0xE3A00001 8 [(16, 0x20000000)] ∧
    (∃ t, step (running 0xE3A00001 8 []) = .next t) ∧ ∃ r, step (running 0xE2A02001 8 []) = .refused r := by
  refine ⟨fun w => ⟨?_, ?_, rfl, rfl, rfl, rfl, rfl⟩, by decide, ⟨_, rfl⟩, ⟨_, rfl⟩⟩
  · intro i hi
    show (running 0 8 [(16, 0x20000000)]).read i = (running 0 8 []).read i
    revert i; decide
  · intro k hk
    show (0x20000000 : Word).getLsbD k = (0 : Word).getLsbD k
    by_cases h : k < 32
    · interval_cases k <;> first | rfl | exact absurd rfl hk
    · rw [BitVec.getLsbD_of_ge _ _ (by omega), BitVec.getLsbD_of_ge _ _ (by omega)]

theorem witness_ReportsAreAppended :
    (∃ t, exec (.ldr .al true false 1 0 (.imm 4)) base = .next t ∧ t.reports ≠ base.reports) ∧
    ∃ t, exec (.b .al 0x7FFFFF) base = .next t ∧ t.reports ≠ base.reports :=
  ⟨⟨_, rfl, by decide⟩, ⟨_, rfl, by decide⟩⟩

/-- Each of the four ways a step is refused. -/
theorem witness_RefusedExactlyWhereSpecGivesNoMeaning :
    (∃ r, step (running 0xE2A02001 8 []) = .refused r) ∧
    (∃ r, step (running 0xE5910000 8 [(1, 65533)]) = .refused r) ∧
    (∃ r, step (running 0xE1A0F001 8 [(1, 65535)]) = .refused r) ∧
    ∃ r, step ((running 0 65533 []).setCtl .Skip) = .refused r := ⟨⟨_, rfl⟩, ⟨_, rfl⟩, ⟨_, rfl⟩, ⟨_, rfl⟩⟩

theorem witness_ResetSequence : (base.setMem (Memory.empty.writeWord 0 1)).mem =
    Memory.empty.writeWord 0 1 := by decide

theorem witness_ImageIsLoaded : (List.replicate 65536 (0 : Byte)).length ≤ 65536 ∧
    65536 < (List.replicate 65537 (0 : Byte)).length ∧ ([] : List Byte).length ≤ 65536 := by
  simp only [List.length_replicate, List.length_nil]; decide

theorem witness_LegalizedImmediates : legalizeImmediate 0x80000000 = some (.imm 1 2) ∧
    immediateValue 1 2 = 0x80000000 := by decide

theorem witness_AssembledBranchReachesTarget :
    (65532 : Word).toNat < 65536 ∧ (0 : Word).toNat < 65536 ∧ (65532 : Word).toNat % 4 = 0 ∧
    (0 : Word).toNat % 4 = 0 ∧ (running 0 8 []).pc = (0 : Word) + 8 := by decide

/-- The 8-bit limit from both sides, and literals 4095 bytes above and below `pc`. -/
theorem witness_LoadImmediateLoadsValue :
    (65527 : Word).toNat < 65528 ∧ (running 0 65535 []).pc = (65527 : Word) + 8 ∧
    (255 : Word).toNat ≤ 255 ∧ 255 < (256 : Word).toNat ∧
    (61440 : Word).toNat ≤ 65532 ∧ (65527 : Word).toNat + 8 ≤ (61440 : Word).toNat + 4095 ∧
    (running 0 8 []).pc = (0 : Word) + 8 ∧ (4103 : Word).toNat ≤ (0 : Word).toNat + 8 + 4095 ∧
    ((running 0 8 []).setMem (Memory.empty.writeWord 4103 256)).mem.readWord (4103 : Word).toNat = 256 := by
  decide

end Sys2Proof.Tests
end

section
/-! PROOFS. The family 20_memory.md: the numeric value of a word by its bytes (R36, R37), and O35. -/

namespace Sys2Proof.Machine

/-- A value placed above every bit of another word adds to it, scaled by its position (R78). -/
theorem toNat_place_or {m n lo : Nat} (v : BitVec n) (w : BitVec m) (hm : lo + n ≤ m)
    (hw : w.toNat < 2 ^ lo) : (place m v lo ||| w).toNat = v.toNat * 2 ^ lo + w.toNat := by
  have hv : v.toNat * 2 ^ lo < 2 ^ m := calc
    v.toNat * 2 ^ lo < 2 ^ n * 2 ^ lo := Nat.mul_lt_mul_of_pos_right v.isLt (Nat.two_pow_pos lo)
    _ = 2 ^ (lo + n) := by rw [Nat.pow_add, Nat.mul_comm]
    _ ≤ 2 ^ m := Nat.pow_le_pow_right Nat.two_pos hm
  have hplace : (place m v lo).toNat = v.toNat <<< lo := by
    rw [place, BitVec.toNat_shiftLeft, BitVec.toNat_setWidth_of_le (by omega), Nat.shiftLeft_eq,
      Nat.mod_eq_of_lt hv]
  rw [BitVec.toNat_or, hplace, ← Nat.shiftLeft_add_eq_or_of_lt hw, Nat.shiftLeft_eq]

/-- The numeric value of four bytes, the lowest first (R36). -/
theorem toNat_wordOfBytes (b0 b1 b2 b3 : Byte) :
    (wordOfBytes b0 b1 b2 b3).toNat =
      b0.toNat + 256 * b1.toNat + 65536 * b2.toNat + 16777216 * b3.toNat := by
  have h0 : (place 32 b0 0).toNat = b0.toNat := by simp [place]; omega
  have h1 := toNat_place_or (lo := 8) b1 (place 32 b0 0) (by omega) (by omega)
  have h2 := toNat_place_or (lo := 16) b2 (place 32 b1 8 ||| place 32 b0 0) (by omega) (by omega)
  have h3 := toNat_place_or (lo := 24) b3 (place 32 b2 16 ||| (place 32 b1 8 ||| place 32 b0 0))
    (by omega) (by omega)
  rw [wordOfBytes, BitVec.or_assoc, BitVec.or_assoc, h3, h2, h1, h0]
  omega

/-- The numeric value of a byte of a word (R37). -/
theorem toNat_byteOfWord (w : Word) (k : Nat) : (byteOfWord w k).toNat = w.toNat / 256 ^ k % 256 := by
  rw [byteOfWord, field, BitVec.extractLsb'_toNat, Nat.shiftRight_eq_div_pow, Nat.pow_mul]

/-- Settles O35: the bytes of a word are the digits of its value to base 256, and the laws of a word
store say where they go and that nothing else changes. -/
theorem littleEndianWords : Obligations.LittleEndianWords := by
  intro m a ha
  refine ⟨toNat_wordOfBytes _ _ _ _, fun v => ⟨fun hm k hk => ?_, fun x hx => ?_, fun hm => ⟨?_, ?_⟩⟩⟩
  · rw [Memory.read_writeWord_same hm v ha hk, toNat_byteOfWord]
  · exact Memory.read_writeWord_of_outside m v hx
  · exact Memory.writeWord_wf hm v ha
  · exact Memory.readWord_writeWord_same hm v ha

end Sys2Proof.Machine
end

section
/-! PROOFS. The family 30_encoding.md: the variant of every word (O2), the rotated immediate (O12) and the
branch displacement (O37). -/

namespace Sys2Proof

/-- The test a word passes to belong to a variant (R56), one for each variant. -/
def VariantTest (w : Word) : Variant → Prop
  | .Halt => w = 0 ∨ field w 26 2 = 3
  | .Multiply => Machine.IsMultiplyWord w
  | .DataProcessing => Machine.IsDataProcessingWord w
  | .SingleDataTransfer => field w 26 2 = 1
  | .Branch => field w 26 2 = 2

/-- The opcode does not move a record out of its variant (R70). -/
@[simp] theorem variant_instr (o : Opcode) (c : Cond) (sf : Bool) (rn rd : Reg) (op2 : Operand2) :
    (o.instr c sf rn rd op2).variant = .DataProcessing := by
  cases o <;> rfl

@[simp] theorem variant_decodeMultiply (w : Word) : (decodeMultiply w).variant = .Multiply := by
  unfold decodeMultiply
  split <;> rfl

@[simp] theorem variant_decodeTransfer (w : Word) : (decodeTransfer w).variant = .SingleDataTransfer := by
  unfold decodeTransfer
  split <;> rfl

/-- The decoder reads a word as an instruction of the variant the word is classified as. -/
@[simp] theorem variant_decode (w : Word) : (decode w).variant = classify w := by
  unfold decode
  cases classify w with
  | Halt => rfl
  | DataProcessing => exact variant_instr ..
  | Multiply => exact variant_decodeMultiply w
  | SingleDataTransfer => exact variant_decodeTransfer w
  | Branch => rfl

/-- A word passes the test of the variant it is classified as: so every word belongs to a variant. -/
theorem variantTest_classify (w : Word) : VariantTest w (classify w) := by
  unfold classify
  split
  · next h0 => exact .inl h0
  · next h0 =>
    split
    · next hc =>
      split
      · next hm => exact ⟨hc, hm⟩
      · next hm => exact ⟨h0, hc, hm⟩
    · next hc0 =>
      split
      · next hc => exact hc
      · next hc1 =>
        split
        · next hc => exact hc
        · next hc2 => exact .inr (by bv_omega)

/-- A word that passes a variant's test is classified as that variant: so it belongs to no other. -/
theorem classify_of_variantTest {w : Word} {v : Variant} (h : VariantTest w v) : classify w = v := by
  have ne_zero {n : BitVec 2} (hc : field w 26 2 = n) (hn : n ≠ 0) : w ≠ 0 := by
    rintro rfl
    exact hn hc.symm
  cases v with
  | Halt =>
    obtain rfl | hc := h
    · rfl
    · simp [classify, hc]
  | DataProcessing =>
    obtain ⟨h0, hc, hm⟩ := h
    rw [classify, if_neg h0, if_pos hc, if_neg hm]
  | Multiply =>
    obtain ⟨hc, hm⟩ := h
    have h0 : w ≠ 0 := by
      rintro rfl
      obtain ⟨-, h7, -⟩ := hm
      cases h7
    rw [classify, if_neg h0, if_pos hc, if_pos hm]
  | SingleDataTransfer =>
    change field w 26 2 = 1 at h
    rw [classify, if_neg (ne_zero h (by decide)), h, if_neg (by decide), if_pos rfl]
  | Branch =>
    change field w 26 2 = 2 at h
    rw [classify, if_neg (ne_zero h (by decide)), h, if_neg (by decide), if_neg (by decide), if_pos rfl]

/-- Classification is decided by the variants' tests, which exclude each other and leave out no word (R56). -/
theorem classify_eq_iff {w : Word} {v : Variant} : classify w = v ↔ VariantTest w v :=
  ⟨fun h => h ▸ variantTest_classify w, classify_of_variantTest⟩

/-- The variant of the decoded instruction is decided by the variants' tests. -/
theorem variant_decode_eq_iff {w : Word} {v : Variant} : (decode w).variant = v ↔ VariantTest w v := by
  rw [variant_decode, classify_eq_iff]

/-- Settles O2: the decoder follows the classification, and the classification the tests. -/
theorem variantOfWord : Obligations.VariantOfWord := fun _ =>
  ⟨variant_decode_eq_iff, variant_decode_eq_iff, variant_decode_eq_iff, variant_decode_eq_iff,
    variant_decode_eq_iff⟩

end Sys2Proof

namespace Sys2Proof.Machine

/-- The rotation of R9 is the library's. -/
theorem ror32_eq_rotateRight (v : Word) (n : Nat) : ror32 v n = v.rotateRight n := rfl

/-- Bit `k` of a rotated word is the bit `n` places further up, round the end of the word (R9). -/
theorem getLsbD_ror32 (v : Word) (n : Nat) {k : Nat} (hk : k < 32) :
    (ror32 v n).getLsbD k = v.getLsbD ((k + n) % 32) := by
  rw [ror32_eq_rotateRight, BitVec.getLsbD_rotateRight]
  by_cases h : k < 32 - n % 32
  · have hi : n % 32 + k = (k + n) % 32 := by omega
    simp only [h, decide_true, cond_true, hi]
  · have hi : k - (32 - n % 32) = (k + n) % 32 := by omega
    simp only [h, hk, decide_true, decide_false, cond_false, Bool.true_and, hi]

/-- Settles O12: the immediate form's value is a rotation, and its carry is absent by definition. -/
theorem rotatedImmediate : Obligations.RotatedImmediate := fun rot imm8 _ =>
  ⟨fun _ hk => getLsbD_ror32 (imm8.setWidth 32) (2 * rot.val) hk, fun _ _ => rfl⟩

/-- The branch displacement is four times the signed offset: the two zero bits multiply by 4 within 26
bits, and the sign extension keeps the signed value (R69). -/
theorem toInt_branchDelta (offset : BitVec 24) : (branchDelta offset).toInt = 4 * offset.toInt := by
  have hplace : (place 26 offset 2).toNat = 4 * offset.toNat := by
    simpa [Nat.mul_comm] using toNat_place_or (m := 26) (lo := 2) offset 0 (by omega) (by decide)
  rw [branchDelta, BitVec.toInt_signExtend_of_le (by omega), BitVec.toInt_eq_toNat_cond,
    BitVec.toInt_eq_toNat_cond, hplace]
  split <;> split <;> omega

/-- Settles O37: the multiple of 4 and the range follow from the signed value. -/
theorem branchDisplacement : Obligations.BranchDisplacement := by
  intro offset
  have hd := toInt_branchDelta offset
  have hmod := BitVec.toInt_eq_toNat_cond (branchDelta offset)
  have hlo := BitVec.le_toInt offset
  have hhi := BitVec.toInt_lt (x := offset)
  exact ⟨hd, by split at hmod <;> omega, by omega, by omega⟩

end Sys2Proof.Machine
end

section
/-! PROOFS. The family 40_condition.md: the condition table (O8), and the gate that the condition of an
instruction is (O9). -/

namespace Sys2Proof

/-- Each code has one condition, and each condition one code (R88). -/
theorem Cond.ofBits_eq_iff {b : BitVec 4} {c : Cond} : Cond.ofBits b = c ↔ b = c.toBits :=
  ⟨fun h => h ▸ (Cond.toBits_ofBits b).symm, fun h => h ▸ Cond.ofBits_toBits c⟩

end Sys2Proof

namespace Sys2Proof.Machine

/-- The conditions that can pass, each with its test on the flags (R88). -/
theorem conditionPassed_iff {c : Cond} {fl : Flags} :
    conditionPassed c fl = true ↔
      (c = .eq ∧ fl.z = true) ∨ (c = .ne ∧ fl.z = false) ∨ (c = .ge ∧ fl.n = fl.v) ∨
      (c = .lt ∧ fl.n ≠ fl.v) ∨ (c = .gt ∧ fl.z = false ∧ fl.n = fl.v) ∨
      (c = .le ∧ (fl.z = true ∨ fl.n ≠ fl.v)) ∨ c = .al := by
  cases c <;> simp [conditionPassed]

/-- Settles O8: the table by condition, read through the code of each condition. -/
theorem conditionTable : Obligations.ConditionTable := by
  intro code fl
  simp only [conditionPassed_iff, Cond.ofBits_eq_iff, Cond.toBits]

/-- The reserved codes have no row in the condition table (R89). -/
theorem conditionPassed_reserved {code : BitVec 4} (fl : Flags)
    (hcode : (2 ≤ code.toNat ∧ code.toNat ≤ 9) ∨ code.toNat = 15) :
    conditionPassed (Cond.ofBits code) fl = false := by
  refine Bool.eq_false_iff.mpr fun hp => ?_
  have hrow := (conditionTable code fl).mp hp
  bv_omega

/-- Whatever an instruction with a condition field does stands behind the gate of its condition (R90). -/
theorem exec_eq_whenPassed {i : Instr} {c : Cond} (hc : i.cond? = some c) (s : State) :
    ∃ effect, exec i s = whenPassed c s effect := by
  cases i with
  | halt => cases hc
  | _ => cases hc; exact ⟨_, rfl⟩

/-- Settles O9: the closed gate answers the no-op, and a reserved code never opens it. -/
theorem failedConditionIsNoOp : Obligations.FailedConditionIsNoOp := by
  refine ⟨fun i c s hc hfail => ?_, fun _ fl hcode => conditionPassed_reserved fl hcode⟩
  obtain ⟨effect, hexec⟩ := exec_eq_whenPassed hc s
  exact hexec.trans (whenPassed_failed effect hfail)

end Sys2Proof.Machine
end

section
/-! PROOFS. The family 41_data_processing.md: the four shifts (O10), the rules of the arithmetic
instructions SUB, RSB, ADD and CMP (O16, O17, O18, O21), and the S bit (O25). -/

namespace Sys2Proof.Machine

/-- Settles O10: a non-zero amount is past the pass-through of R96, and each shift there is the library's. -/
theorem shifterResults : Obligations.ShifterResults := by
  intro v n hpos hlt
  have hn : n ≠ 0 := by omega
  simp only [shiftWord, if_neg hn]
  refine ⟨?lsl, ?lsr, ?asr, ?ror⟩
  case lsl => rw [BitVec.toNat_shiftLeft, Nat.shiftLeft_eq]
  case lsr => rw [BitVec.toNat_ushiftRight, Nat.shiftRight_eq_div_pow]
  case asr => rw [BitVec.sshiftRight_eq, Int.shiftRight_eq_div_pow, Nat.cast_pow, Nat.cast_ofNat]
  case ror => rw [ror32, Nat.mod_eq_of_lt (by omega)]

/-- A DataProcessing word is read by the field table of R58. -/
theorem decode_of_isDataProcessingWord {w : Word} (hw : IsDataProcessingWord w) :
    decode w = decodeDataProcessing w := by
  rw [decode, classify_of_variantTest (v := .DataProcessing) hw]

/-- Every opcode's words decode to the opcode's instruction, reserved or not (R58, R70, R72). -/
theorem dataProcessingEncoding_instr (o : Opcode) : DataProcessingEncoding o.toBits o.instr := by
  intro w hw hcode
  rw [decode_of_isDataProcessingWord hw, decodeDataProcessing, hcode, Opcode.ofBits_toBits]

/-- The shifter writes C with S = 1 only, and then the bit of R97 (decisions D9, D23). -/
theorem operand2Carry_hardware (op2 : Operand2) (sf : Bool) (s : State) :
    operand2Carry Config.hardware op2 sf s = if sf then leftShiftBit op2 s else none := by
  cases op2 with
  | imm rot imm8 => cases sf <;> rfl
  | reg sr =>
    obtain ⟨n, kind, rm⟩ := sr
    cases kind with
    | lsl =>
      cases sf
      · rfl
      · simp [operand2Carry, shifterCarry, leftShiftBit, Config.hardware, Fin.val_eq_zero_iff]
    | lsr | asr | ror => cases sf <;> rfl

/-- The flags a DataProcessing instruction with S = 1 leaves: the ALU's C overrides the shifter's, and V
is not written (R29, R99, R100). -/
theorem flagsOf_dataProcessingFlags (cpsr res : Word) (shC aluC : Option Bool) :
    flagsOf (dataProcessingFlags cpsr shC res aluC) =
      { n := res.getLsbD 31, z := decide (res = 0), c := aluC.getD (shC.getD (flagsOf cpsr).c),
        v := (flagsOf cpsr).v } := by
  simp [flagsOf, getLsbD_dataProcessingFlags, -BitVec.getLsbD_eq_getElem]

/-- Bits 27:0 of the flag register are not written (R30). -/
theorem field_dataProcessingFlags_low (cpsr res : Word) (shC aluC : Option Bool) :
    field (dataProcessingFlags cpsr shC res aluC) 0 28 = field cpsr 0 28 := by
  refine BitVec.eq_of_getLsbD_eq fun i hi => ?_
  rw [getLsbD_field, getLsbD_field, getLsbD_dataProcessingFlags, if_neg (by omega), if_neg (by omega),
    if_neg (by omega)]

/-- A meaning that is the common sequence of R93 follows the rule of a DataProcessing instruction, with
the result and the C of its ALU operation. -/
theorem dataProcessingResult_of_exec {mk : Cond → Bool → Reg → Reg → Operand2 → Instr} {w : Bool}
    {op : Word → Word → AluOutput} {res : Word → Word → Word} {carry : Word → Word → Option Bool}
    (hexec : ∀ c sf rn rd op2 s,
      exec (mk c sf rn rd op2) s = dataProcessing Config.hardware w op c sf rn rd op2 s)
    (hop : ∀ a b, op a b = ⟨res a b, carry a b⟩) : DataProcessingResult mk w res carry := by
  intro c sf rn rd op2 s hpass
  refine ⟨dataProcessingEffect Config.hardware w op sf rn rd op2 s, ?next, by simp, ?result, ?frame,
    ?noS, ?withS, by simp [SameOutside]⟩
  case next => rw [hexec, dataProcessing, whenPassed_passed _ hpass]
  case result =>
    intro hw
    rw [dataProcessingEffect_read _ _ _ _ _ _ _ _ (slotOf_ne_cpsrSlot rd), if_pos ⟨hw, rfl⟩, hop]
  case frame =>
    intro i hi hrd
    rw [dataProcessingEffect_read _ _ _ _ _ _ _ _ hi, if_neg fun ⟨hw, he⟩ => hrd hw he]
  case noS =>
    rintro rfl
    rw [dataProcessingEffect_cpsr, if_neg Bool.false_ne_true]
  case withS =>
    rintro rfl
    simp only [State.flags, dataProcessingEffect_cpsr, if_true, hop, operand2Carry_hardware,
      flagsOf_dataProcessingFlags, field_dataProcessingFlags_low, true_and, and_true]
    cases carry (s.read (slotOf rn)) (operand2Value op2 s) <;> cases leftShiftBit op2 s <;> rfl

/-- The difference modulo 2^32 of R104, R105 and R109, in unbounded arithmetic. -/
theorem ofInt_toNat_sub_toNat (a b : Word) : BitVec.ofInt 32 ((a.toNat : Int) - b.toNat) = a - b := by
  refine BitVec.eq_of_toNat_eq ?_
  rw [BitVec.toNat_ofInt, BitVec.toNat_sub]
  omega

/-- `aluSub` in the terms of R104 and R109: the unbounded difference, and C = no borrow. -/
theorem aluSub_eq (a b : Word) :
    aluSub a b = ⟨BitVec.ofInt 32 ((a.toNat : Int) - b.toNat), some (decide (a.toNat ≥ b.toNat))⟩ := by
  rw [ofInt_toNat_sub_toNat]
  rfl

/-- Settles O16: the common sequence with the ALU's difference. -/
theorem subRule : Obligations.SubRule :=
  ⟨dataProcessingEncoding_instr .sub,
    dataProcessingResult_of_exec (op := aluSub) (fun _ _ _ _ _ _ => rfl) aluSub_eq⟩

/-- Settles O17: RSB's ALU operation is SUB's with its operands reversed. -/
theorem rsbRule : Obligations.RsbRule :=
  ⟨dataProcessingEncoding_instr .rsb,
    dataProcessingResult_of_exec (op := aluRsb) (fun _ _ _ _ _ _ => rfl) fun a b => aluSub_eq b a⟩

/-- Settles O18: the common sequence with the ALU's sum. -/
theorem addRule : Obligations.AddRule :=
  ⟨dataProcessingEncoding_instr .add,
    dataProcessingResult_of_exec (op := aluAdd) (fun _ _ _ _ _ _ => rfl) fun _ _ => rfl⟩

/-- Settles O21: SUB's ALU operation in the common sequence that writes no `rd`. -/
theorem cmpRule : Obligations.CmpRule :=
  ⟨dataProcessingEncoding_instr .cmp,
    dataProcessingResult_of_exec (op := aluSub) (fun _ _ _ _ _ _ => rfl) aluSub_eq⟩

/-- The flag register changes only where the S bit of an executed instruction is set (R27). -/
theorem sBit_of_exec_changes_cpsr {i : Instr} {s t : State} (hexec : exec i s = .next t)
    (hne : t.cpsr ≠ s.cpsr) :
    sBit i = true ∧ (i.variant = .DataProcessing ∨ i.variant = .Multiply) ∧
      ∃ c, i.cond? = some c ∧ conditionPassed c s.flags = true := by
  cases exec_next_cases hexec with
  | dataProcessing c w op sf rn rd op2 hc hp hv hs _ =>
    refine ⟨hs.trans ?_, .inl hv, c, hc, hp⟩
    by_contra hsf
    exact hne (by rw [dataProcessingEffect_cpsr, if_neg hsf])
  | multiply c sf rd res hc hp hv hs _ =>
    refine ⟨hs.trans ?_, .inr hv, c, hc, hp⟩
    by_contra hsf
    exact hne (by rw [multiplyEffect_cpsr, if_neg hsf])
  | halt | failed | load | store | transferReported | taken | branchReported =>
    exact absurd (by simp [loadWord, storeWord]) hne

/-- Without `rd` and without S the common sequence of R93 does nothing, whether the condition passes or
not (R98). -/
theorem dataProcessing_without_rd_without_s (op : Word → Word → AluOutput) (c : Cond) (rn rd : Reg)
    (op2 : Operand2) (s : State) :
    dataProcessing Config.hardware false op c false rn rd op2 s = .next (s.setCtl .Continue) := by
  obtain ⟨-, h⟩ | ⟨-, h⟩ := whenPassed_cases c s
    (.next (dataProcessingEffect Config.hardware false op false rn rd op2 s))
  · exact h
  · exact h

/-- Settles O25: the S bit over the cases of `exec`, and the compares without S as the common sequence that
writes nothing. -/
theorem flagsChangeOnlyWithS : Obligations.FlagsChangeOnlyWithS :=
  ⟨fun _ _ _ => sBit_of_exec_changes_cpsr, fun c rn rd op2 s =>
    ⟨dataProcessing_without_rd_without_s aluAnd c rn rd op2 s,
      dataProcessing_without_rd_without_s aluEor c rn rd op2 s,
      dataProcessing_without_rd_without_s aluSub c rn rd op2 s⟩⟩

end Sys2Proof.Machine
end

section
/-! PROOFS. The family 44_branch.md: the rule of B (O38). -/

namespace Sys2Proof.Machine

/-- A word of class 10 is read by the field table of R61, whatever its ignored bits 25:24 (R136). -/
theorem decode_of_branchClass {w : Word} (hw : field w 26 2 = 2) : decode w = decodeBranch w := by
  rw [decode, classify_of_variantTest (v := .Branch) hw]

/-- A branch whose condition passed has its effect, which is never a refusal (R132). -/
theorem exec_b_passed {c : Cond} (offset : BitVec 24) {s : State} (hpass : conditionPassed c s.flags = true) :
    exec (.b c offset) s = .next (branchEffect offset s) :=
  whenPassed_passed _ hpass

/-- A branch to a target in memory is taken (R132, R135). -/
theorem branchEffect_inside {offset : BitVec 24} {s : State} (h : (branchTarget offset s).toNat < 65536) :
    branchEffect offset s = (s.write pcSlot (branchTarget offset s)).setCtl .Skip :=
  if_pos ((inBounds_iff _).mpr h)

/-- A branch to a target outside memory is reported and suppressed (R134). -/
theorem branchEffect_outside {offset : BitVec 24} {s : State}
    (h : 65536 ≤ (branchTarget offset s).toNat) :
    branchEffect offset s = s.reportAndContinue (.BranchTargetOutOfBounds (branchTarget offset s)) :=
  if_neg (mt (inBounds_iff _).mp (Nat.not_lt.mpr h))

/-- Settles O38: the closed gate of every condition, and the two cases of the branch behind an open one. -/
theorem branchRule : Obligations.BranchRule := by
  refine ⟨fun _ => decode_of_branchClass, fun c offset s => ⟨?failed, ?taken, ?reported⟩⟩
  case failed => exact failedConditionIsNoOp.1 (.b c offset) c s rfl
  case taken =>
    intro hpass hin
    refine ⟨(s.write pcSlot (branchTarget offset s)).setCtl .Skip, ?_, setCtl_ctl _ _,
      write_pc_pc _ _, fun j hj => read_write_of_ne _ _ _ _ hj, by simp [SameOutside]⟩
    rw [exec_b_passed offset hpass, branchEffect_inside hin]
  case reported =>
    intro hpass hout
    rw [exec_b_passed offset hpass, branchEffect_outside hout]
    rfl

end Sys2Proof.Machine
end

section
/-! PROOFS. The family 30_encoding.md, continued: the layouts of the encoder (O6), the two round trips of the
codec (O4, O5), the ignored bits (O7), the sample words (O1) and the list of bytes (O3). -/

namespace Sys2Proof

/-! ### The layouts -/

/-- Two fields side by side are placed one above the other (R78). -/
theorem place_append {k n : Nat} (m : Nat) (a : BitVec k) (b : BitVec n) (lo : Nat) :
    place m (a ++ b) lo = place m a (lo + n) ||| place m b lo := by
  refine BitVec.eq_of_getLsbD_eq fun i hi => ?_
  rw [BitVec.getLsbD_or, getLsbD_place, getLsbD_place, getLsbD_place, BitVec.getLsbD_append]
  by_cases hlo : lo ≤ i
  · by_cases hn : i - lo < n
    · have h1 : ¬ lo + n ≤ i := by omega
      simp [hlo, hn, h1]
    · have h1 : lo + n ≤ i := by omega
      have h2 : i - lo - n = i - (lo + n) := by omega
      have h3 : b.getLsbD (i - lo) = false := BitVec.getLsbD_of_ge _ _ (by omega)
      simp only [hlo, hn, h1, h2, h3, if_false, Bool.and_false, Bool.or_false]
  · have h1 : ¬ lo + n ≤ i := by omega
    simp [hlo, h1]

/-- Fixed zero bits place nothing. -/
@[simp] theorem place_zero (m n lo : Nat) : place m (0 : BitVec n) lo = 0#m := by simp [place]

/-- A field as wide as the word is the word. -/
theorem place_self {n : Nat} (v : BitVec n) : place n v 0 = v := by simp [place]

theorem encode_instr (o : Opcode) (c : Cond) (sf : Bool) (rn rd : Reg) (op2 : Operand2) :
    encode (o.instr c sf rn rd op2) = encodeDataProcessing o c sf rn rd op2 := by
  cases o <;> rfl

theorem encodeDataProcessing_layout (o : Opcode) (c : Cond) (sf : Bool) (rn rd : Reg) (op2 : Operand2) :
    encodeDataProcessing o c sf rn rd op2 =
      c.toBits ++ (0 : BitVec 2) ++ BitVec.ofBool op2.immediateFlag ++ o.toBits ++ BitVec.ofBool sf ++
        Reg.toBits rn ++ Reg.toBits rd ++ op2.toBits := by
  refine Eq.trans ?_ (place_self _)
  simp only [place_append, place_zero, BitVec.or_zero]
  rfl

theorem encodeMultiply_layout (a : Bool) (c : Cond) (sf : Bool) (rd rn rs rm : Reg) :
    encodeMultiply a c sf rd rn rs rm =
      c.toBits ++ (0 : BitVec 6) ++ BitVec.ofBool a ++ BitVec.ofBool sf ++ Reg.toBits rd ++
        Reg.toBits rn ++ Reg.toBits rs ++ (9 : BitVec 4) ++ Reg.toBits rm := by
  refine Eq.trans ?_ (place_self _)
  simp only [place_append, place_zero, BitVec.or_zero]
  rfl

theorem encodeTransfer_layout (l : Bool) (c : Cond) (pre up : Bool) (rn rd : Reg) (off : Offset) :
    encodeTransfer l c pre up rn rd off =
      c.toBits ++ (1 : BitVec 2) ++ BitVec.ofBool (off.immediateFlag Config.hardware) ++
        BitVec.ofBool pre ++ BitVec.ofBool up ++ (0 : BitVec 2) ++ BitVec.ofBool l ++ Reg.toBits rn ++
        Reg.toBits rd ++ off.toBits := by
  refine Eq.trans ?_ (place_self _)
  simp only [place_append, place_zero, BitVec.or_zero]
  rfl

theorem encodeBranch_layout (c : Cond) (offset : BitVec 24) :
    encodeBranch c offset = c.toBits ++ (10 : BitVec 4) ++ offset := by
  refine Eq.trans ?_ (place_self _)
  simp only [place_append]
  rfl

theorem ShiftedReg.toBits_layout (n : Fin 32) (k : ShiftKind) (rm : Reg) :
    ShiftedReg.toBits ⟨n, k, rm⟩ = BitVec.ofNat 5 n.val ++ k.toBits ++ (0 : BitVec 1) ++ Reg.toBits rm := by
  refine Eq.trans ?_ (place_self _)
  simp only [place_append, place_zero, BitVec.or_zero]
  rfl

theorem Operand2.toBits_imm_layout (rot : Fin 16) (imm8 : Byte) :
    Operand2.toBits (.imm rot imm8) = BitVec.ofNat 4 rot.val ++ imm8 := by
  refine Eq.trans ?_ (place_self _)
  simp only [place_append]
  rfl

/-- Settles O6: the encoder's placed fields, joined from bit 31 down. -/
theorem encoderLayouts : Obligations.EncoderLayouts := by
  refine ⟨fun o c sf rn rd op2 => ?dataProcessing, fun c sf rd rn rs rm =>
      ⟨encodeMultiply_layout false c sf rd rn rs rm, encodeMultiply_layout true c sf rd rn rs rm⟩,
    fun c pre up rn rd off =>
      ⟨encodeTransfer_layout true c pre up rn rd off, encodeTransfer_layout false c pre up rn rd off⟩,
    encodeBranch_layout, rfl, Operand2.toBits_imm_layout,
    fun n k rm => ⟨ShiftedReg.toBits_layout n k rm, ShiftedReg.toBits_layout n k rm⟩, fun _ => rfl⟩
  rw [encode_instr, encodeDataProcessing_layout]

/-! ### Decoding an encoding -/

/-- The fields of an encoded Multiply word read back (R59). -/
theorem decodeMultiply_encode (a : Bool) (c : Cond) (sf : Bool) (rd rn rs rm : Reg) :
    decodeMultiply (encodeMultiply a c sf rd rn rs rm) =
      if a then .mla c sf rd rn rs rm else .mul c sf rd rn rs rm := by
  simp (disch := omega) [decodeMultiply, encodeMultiply, getLsbD_place, field_place_same,
    field_place_disjoint, -BitVec.getLsbD_eq_getElem]

/-- The fields of an encoded SingleDataTransfer word read back (R60). -/
theorem decodeTransfer_encode (l : Bool) (c : Cond) (pre up : Bool) (rn rd : Reg) (off : Offset) :
    decodeTransfer (encodeTransfer l c pre up rn rd off) =
      if l then .ldr c pre up rn rd off else .str c pre up rn rd off := by
  simp (disch := omega) [decodeTransfer, encodeTransfer, getLsbD_place, field_place_same,
    field_place_disjoint, -BitVec.getLsbD_eq_getElem]

/-- The fields of an encoded Branch word read back (R61). -/
theorem decodeBranch_encode (c : Cond) (offset : BitVec 24) :
    decodeBranch (encodeBranch c offset) = .b c offset := by
  simp (disch := omega) [decodeBranch, encodeBranch, field_place_same, field_place_disjoint]

/-- The encoding of a well-formed instruction is classified as the instruction's variant (R56, R78). -/
theorem classify_encode {i : Instr} (h : i.wellFormed = true) : classify (encode i) = i.variant := by
  open Laws.EncodedVariant in
  cases i with
  | halt => exact halt h
  | mul => exact mul _ _ _ _ _ _ h
  | mla => exact mla _ _ _ _ _ _ h
  | and => exact and _ _ _ _ _ h
  | eor => exact eor _ _ _ _ _ h
  | sub => exact sub _ _ _ _ _ h
  | rsb => exact rsb _ _ _ _ _ h
  | add => exact add _ _ _ _ _ h
  | tst => exact tst _ _ _ _ _ h
  | teq => exact teq _ _ _ _ _ h
  | cmp => exact cmp _ _ _ _ _ h
  | orr => exact orr _ _ _ _ _ h
  | mov => exact mov _ _ _ _ _ h
  | reserved0101 => exact reserved0101 _ _ _ _ _ h
  | reserved0110 => exact reserved0110 _ _ _ _ _ h
  | reserved0111 => exact reserved0111 _ _ _ _ _ h
  | reserved1011 => exact reserved1011 _ _ _ _ _ h
  | reserved1110 => exact reserved1110 _ _ _ _ _ h
  | reserved1111 => exact reserved1111 _ _ _ _ _ h
  | ldr => exact ldr _ _ _ _ _ _ h
  | str => exact str _ _ _ _ _ _ h
  | b => exact b _ _ h

/-- Every DataProcessing instruction is the record of some opcode (R58, R70). -/
theorem exists_instr_of_variant_dataProcessing {i : Instr} (h : i.variant = .DataProcessing) :
    ∃ (o : Opcode) (c : Cond) (sf : Bool) (rn rd : Reg) (op2 : Operand2), i = o.instr c sf rn rd op2 := by
  cases i with
  | and c sf rn rd op2 => exact ⟨.and, c, sf, rn, rd, op2, rfl⟩
  | eor c sf rn rd op2 => exact ⟨.eor, c, sf, rn, rd, op2, rfl⟩
  | sub c sf rn rd op2 => exact ⟨.sub, c, sf, rn, rd, op2, rfl⟩
  | rsb c sf rn rd op2 => exact ⟨.rsb, c, sf, rn, rd, op2, rfl⟩
  | add c sf rn rd op2 => exact ⟨.add, c, sf, rn, rd, op2, rfl⟩
  | tst c sf rn rd op2 => exact ⟨.tst, c, sf, rn, rd, op2, rfl⟩
  | teq c sf rn rd op2 => exact ⟨.teq, c, sf, rn, rd, op2, rfl⟩
  | cmp c sf rn rd op2 => exact ⟨.cmp, c, sf, rn, rd, op2, rfl⟩
  | orr c sf rn rd op2 => exact ⟨.orr, c, sf, rn, rd, op2, rfl⟩
  | mov c sf rn rd op2 => exact ⟨.mov, c, sf, rn, rd, op2, rfl⟩
  | reserved0101 c sf rn rd op2 => exact ⟨.reserved0101, c, sf, rn, rd, op2, rfl⟩
  | reserved0110 c sf rn rd op2 => exact ⟨.reserved0110, c, sf, rn, rd, op2, rfl⟩
  | reserved0111 c sf rn rd op2 => exact ⟨.reserved0111, c, sf, rn, rd, op2, rfl⟩
  | reserved1011 c sf rn rd op2 => exact ⟨.reserved1011, c, sf, rn, rd, op2, rfl⟩
  | reserved1110 c sf rn rd op2 => exact ⟨.reserved1110, c, sf, rn, rd, op2, rfl⟩
  | reserved1111 c sf rn rd op2 => exact ⟨.reserved1111, c, sf, rn, rd, op2, rfl⟩
  | halt | mul | mla | ldr | str | b => cases h

/-- A Multiply word is read by the field table of R59. -/
theorem decode_of_isMultiplyWord {w : Word} (hw : Machine.IsMultiplyWord w) : decode w = decodeMultiply w := by
  rw [decode, classify_of_variantTest (v := .Multiply) hw]

/-- A word of class 01 is read by the field table of R60. -/
theorem decode_of_transferClass {w : Word} (hw : field w 26 2 = 1) : decode w = decodeTransfer w := by
  rw [decode, classify_of_variantTest (v := .SingleDataTransfer) hw]

/-- Decoding the encoding of a well-formed instruction gives it back (R64). -/
theorem decode_encode {i : Instr} (h : i.wellFormed = true) : decode (encode i) = i := by
  have hw : VariantTest (encode i) i.variant := classify_eq_iff.mp (classify_encode h)
  by_cases hv : i.variant = .DataProcessing
  · rw [hv] at hw
    obtain ⟨o, c, sf, rn, rd, op2, rfl⟩ := exists_instr_of_variant_dataProcessing hv
    rw [Machine.decode_of_isDataProcessingWord hw, encode_instr, decodeDataProcessing_encode]
  · cases i with
    | halt => rfl
    | mul => exact (decode_of_isMultiplyWord hw).trans (decodeMultiply_encode false _ _ _ _ _ _)
    | mla => exact (decode_of_isMultiplyWord hw).trans (decodeMultiply_encode true _ _ _ _ _ _)
    | ldr => exact (decode_of_transferClass hw).trans (decodeTransfer_encode true _ _ _ _ _ _)
    | str => exact (decode_of_transferClass hw).trans (decodeTransfer_encode false _ _ _ _ _ _)
    | b => exact (Machine.decode_of_branchClass hw).trans (decodeBranch_encode _ _)
    | _ => exact absurd rfl hv

/-- The decoder reads the four bytes of a word as that word, whatever follows (R38, R55). -/
theorem decodeBytes_bytesOfWord_append (w : Word) (rest : List Byte) :
    decodeBytes (bytesOfWord w ++ rest) = .ok (decode w, rest) := by
  change Except.ok (decode (wordOfBytes (byteOfWord w 0) (byteOfWord w 1) (byteOfWord w 2)
    (byteOfWord w 3)), rest) = _
  rw [wordOfBytes_byteOfWord]

/-- Settles O4: the classification finds the variant, and the variant's field table the fields. -/
theorem decodeEncodeRoundTrip : Obligations.DecodeEncodeRoundTrip := by
  intro i rest h
  refine ⟨decode_encode h, ?_⟩
  rw [encodeBytes, decodeBytes_bytesOfWord_append, decode_encode h]

/-! ### Encoding a decoded word -/

/-- Two words are equal when both their halves are. -/
theorem append_eq_append_iff {k n : Nat} {a a' : BitVec k} {b b' : BitVec n} :
    a ++ b = a' ++ b' ↔ a = a' ∧ b = b' := by
  refine ⟨fun h => ⟨?_, ?_⟩, fun ⟨ha, hb⟩ => by rw [ha, hb]⟩
  · rw [← BitVec.extractLsb'_append_eq_left (a := a) (b := b), h, BitVec.extractLsb'_append_eq_left]
  · rw [← BitVec.extractLsb'_append_eq_right (a := a) (b := b), h, BitVec.extractLsb'_append_eq_right]

/-- Two neighbouring fields are one field. -/
theorem field_append_field {m : Nat} (w : BitVec m) {lo hi k n : Nat} (h : hi = lo + n) :
    field w hi k ++ field w lo n = field w lo (k + n) :=
  BitVec.extractLsb'_append_extractLsb'_eq_extractLsb' h

theorem field_self {m : Nat} (w : BitVec m) : field w 0 m = w := BitVec.extractLsb'_eq_self

/-- A field of a field is a field of the word. -/
theorem field_field {m : Nat} (w : BitVec m) {lo n lo' n' : Nat} (h : lo' + n' ≤ n) :
    field (field w lo n) lo' n' = field w (lo + lo') n' := by
  refine BitVec.eq_of_getLsbD_eq fun i hi => ?_
  have h1 : lo' + i < n := by omega
  simp only [getLsbD_field, hi, h1, decide_true, Bool.true_and, Nat.add_assoc]

/-- A single bit as a field. -/
theorem ofBool_getLsbD {m : Nat} (w : BitVec m) (i : Nat) : BitVec.ofBool (w.getLsbD i) = field w i 1 := by
  refine BitVec.eq_of_getLsbD_eq fun j hj => ?_
  obtain rfl : j = 0 := by omega
  cases h : w.getLsbD i <;> simp [h, -BitVec.getLsbD_eq_getElem]

theorem zero_eq_field_one_iff {m : Nat} (w : BitVec m) (i : Nat) :
    0 = field w i 1 ↔ w.getLsbD i = false := by
  rw [← ofBool_getLsbD]
  cases w.getLsbD i <;> decide

/-- The register form gives its 12 bits back but for bit 4 (R66, R67). -/
theorem ShiftedReg.toBits_ofBits_eq_iff (v : BitVec 12) :
    (ShiftedReg.ofBits v).toBits = v ↔ v.getLsbD 4 = false := by
  have hv : v = field v 7 5 ++ field v 5 2 ++ field v 4 1 ++ field v 0 4 := by
    simp (disch := omega) only [field_append_field]
    exact (field_self v).symm
  conv_lhs => rhs; rw [hv]
  rw [ShiftedReg.ofBits, ShiftedReg.toBits_layout]
  change @Eq (BitVec (5 + 2 + 1 + 4)) _ _ ↔ _
  simp only [append_eq_append_iff, ShiftKind.toBits_ofBits, Reg.toBits_ofBits, BitVec.ofNat_toNat,
    BitVec.setWidth_eq, zero_eq_field_one_iff, true_and, and_true]

@[simp] theorem Operand2.immediateFlag_ofBits (i : Bool) (v : BitVec 12) :
    (Operand2.ofBits i v).immediateFlag = i := by
  cases i <;> rfl

@[simp] theorem Offset.immediateFlag_ofBits (cfg : Config) (i : Bool) (v : BitVec 12) :
    (Offset.ofBits cfg i v).immediateFlag cfg = i := by
  cases i <;> cases h : cfg.sdtISetMeansRegister <;> simp [Offset.ofBits, Offset.immediateFlag, h]

/-- A second operand gives its 12 bits back but for bit 4 of the register form (R65, R66). -/
theorem Operand2.toBits_ofBits_eq_iff (i : Bool) (v : BitVec 12) :
    (Operand2.ofBits i v).toBits = v ↔ (i = false → v.getLsbD 4 = false) := by
  cases i with
  | false => simpa [Operand2.ofBits, Operand2.toBits] using ShiftedReg.toBits_ofBits_eq_iff v
  | true =>
    have hv : v = field v 8 4 ++ field v 0 8 := by
      simp (disch := omega) only [field_append_field]
      exact (field_self v).symm
    have hbits : (Operand2.ofBits true v).toBits = field v 8 4 ++ field v 0 8 := by
      rw [Operand2.ofBits, if_pos rfl, Operand2.toBits_imm_layout]
      simp only [BitVec.ofNat_toNat, BitVec.setWidth_eq]
    simp [hbits.trans hv.symm]

/-- An offset gives its 12 bits back but for bit 4 of the register form (R68). -/
theorem Offset.toBits_ofBits_eq_iff (i : Bool) (v : BitVec 12) :
    (Offset.ofBits Config.hardware i v).toBits = v ↔ (i = true → v.getLsbD 4 = false) := by
  cases i with
  | false => simp [Offset.ofBits, Offset.toBits, Config.hardware]
  | true => simpa [Offset.ofBits, Offset.toBits, Config.hardware] using ShiftedReg.toBits_ofBits_eq_iff v

/-- A DataProcessing word comes back but for bit 4 of the register form (R58, R67). -/
theorem encode_decodeDataProcessing_eq_iff {w : Word} (hw : field w 26 2 = 0) :
    encode (decodeDataProcessing w) = w ↔ (w.getLsbD 25 = false → w.getLsbD 4 = false) := by
  have hsplit : w = field w 28 4 ++ field w 26 2 ++ field w 25 1 ++ field w 21 4 ++ field w 20 1 ++
      field w 16 4 ++ field w 12 4 ++ field w 0 12 := by
    simp (disch := omega) only [field_append_field]
    exact (field_self w).symm
  conv_lhs => rhs; rw [hsplit]
  rw [decodeDataProcessing, encode_instr, encodeDataProcessing_layout]
  change @Eq (BitVec (4 + 2 + 1 + 4 + 1 + 4 + 4 + 12)) _ _ ↔ _
  simp only [append_eq_append_iff, Cond.toBits_ofBits, Opcode.toBits_ofBits, Reg.toBits_ofBits,
    Operand2.immediateFlag_ofBits, Operand2.toBits_ofBits_eq_iff, ofBool_getLsbD, hw, getLsbD_field,
    true_and]
  simp

/-- A Multiply word comes back but for bits 24:22 and 6:5 (R59). -/
theorem encode_decodeMultiply_eq_iff (w : Word) :
    encode (decodeMultiply w) = w ↔ field w 22 6 = 0 ∧ field w 4 4 = 9 := by
  have hsplit : w = field w 28 4 ++ field w 22 6 ++ field w 21 1 ++ field w 20 1 ++ field w 16 4 ++
      field w 12 4 ++ field w 8 4 ++ field w 4 4 ++ field w 0 4 := by
    simp (disch := omega) only [field_append_field]
    exact (field_self w).symm
  have henc : encode (decodeMultiply w) = encodeMultiply (w.getLsbD 21) (Cond.ofBits (field w 28 4))
      (w.getLsbD 20) (Reg.ofBits (field w 16 4)) (Reg.ofBits (field w 12 4)) (Reg.ofBits (field w 8 4))
      (Reg.ofBits (field w 0 4)) := by
    cases h : w.getLsbD 21 <;> simp only [decodeMultiply, h] <;> rfl
  conv_lhs => rhs; rw [hsplit]
  rw [henc, encodeMultiply_layout]
  change @Eq (BitVec (4 + 6 + 1 + 1 + 4 + 4 + 4 + 4 + 4)) _ _ ↔ _
  simp only [append_eq_append_iff, Cond.toBits_ofBits, Reg.toBits_ofBits, ofBool_getLsbD, true_and,
    and_true, eq_comm (b := field w 22 6), eq_comm (b := field w 4 4)]

/-- A SingleDataTransfer word comes back but for bits 22:21 and bit 4 of the register form (R60, R129). -/
theorem encode_decodeTransfer_eq_iff {w : Word} (hw : field w 26 2 = 1) :
    encode (decodeTransfer w) = w ↔ field w 21 2 = 0 ∧ (w.getLsbD 25 = true → w.getLsbD 4 = false) := by
  have hsplit : w = field w 28 4 ++ field w 26 2 ++ field w 25 1 ++ field w 24 1 ++ field w 23 1 ++
      field w 21 2 ++ field w 20 1 ++ field w 16 4 ++ field w 12 4 ++ field w 0 12 := by
    simp (disch := omega) only [field_append_field]
    exact (field_self w).symm
  have henc : encode (decodeTransfer w) = encodeTransfer (w.getLsbD 20) (Cond.ofBits (field w 28 4))
      (w.getLsbD 24) (w.getLsbD 23) (Reg.ofBits (field w 16 4)) (Reg.ofBits (field w 12 4))
      (Offset.ofBits Config.hardware (w.getLsbD 25) (field w 0 12)) := by
    cases h : w.getLsbD 20 <;> simp only [decodeTransfer, h] <;> rfl
  conv_lhs => rhs; rw [hsplit]
  rw [henc, encodeTransfer_layout]
  change @Eq (BitVec (4 + 2 + 1 + 1 + 1 + 2 + 1 + 4 + 4 + 12)) _ _ ↔ _
  simp only [append_eq_append_iff, Cond.toBits_ofBits, Reg.toBits_ofBits, Offset.immediateFlag_ofBits,
    Offset.toBits_ofBits_eq_iff, ofBool_getLsbD, hw, getLsbD_field, true_and, and_true,
    eq_comm (b := field w 21 2)]
  simp

/-- A Branch word comes back but for bits 27:24 (R61, R136). -/
theorem encode_decodeBranch_eq_iff (w : Word) : encode (decodeBranch w) = w ↔ field w 24 4 = 10 := by
  have hsplit : w = field w 28 4 ++ field w 24 4 ++ field w 0 24 := by
    simp (disch := omega) only [field_append_field]
    exact (field_self w).symm
  conv_lhs => rhs; rw [hsplit]
  rw [decodeBranch, encode, encodeBranch_layout]
  change @Eq (BitVec (4 + 4 + 24)) _ _ ↔ _
  simp only [append_eq_append_iff, Cond.toBits_ofBits, true_and, and_true, eq_comm (b := field w 24 4)]

/-- The condition R64 puts on a canonical word of each variant: the ignored bits of its format are 0, or
have their fixed value. -/
def CanonicalTest (w : Word) : Variant → Prop
  | .Halt => w = 0
  | .DataProcessing => w.getLsbD 25 = false → w.getLsbD 4 = false
  | .Multiply => field w 22 6 = 0 ∧ field w 4 4 = 9
  | .SingleDataTransfer => field w 21 2 = 0 ∧ (w.getLsbD 25 = true → w.getLsbD 4 = false)
  | .Branch => field w 24 4 = 10

/-- A word comes back from the codec exactly when it passes the test of its variant. -/
theorem encode_decode_eq_iff (w : Word) : encode (decode w) = w ↔ CanonicalTest w (classify w) := by
  have hw := variantTest_classify w
  unfold decode
  cases hc : classify w <;> rw [hc] at hw
  case Halt => exact eq_comm
  case DataProcessing => exact encode_decodeDataProcessing_eq_iff hw.2.1
  case Multiply => exact encode_decodeMultiply_eq_iff w
  case SingleDataTransfer => exact encode_decodeTransfer_eq_iff hw
  case Branch => exact encode_decodeBranch_eq_iff w

/-- The fixed bits of a canonical Multiply word make it a Multiply word. -/
theorem isMultiplyWord_of_canonical {w : Word} (h : field w 22 6 = 0 ∧ field w 4 4 = 9) :
    Machine.IsMultiplyWord w := by
  obtain ⟨h22, h4⟩ := h
  have bit (i : Nat) (hi : i < 6) : w.getLsbD (22 + i) = false := by
    simpa [hi, -BitVec.getLsbD_eq_getElem] using congrArg (·.getLsbD i) h22
  have low (i : Nat) (hi : i < 4) : w.getLsbD (4 + i) = (9 : BitVec 4).getLsbD i := by
    simpa [hi, -BitVec.getLsbD_eq_getElem] using congrArg (·.getLsbD i) h4
  refine ⟨?_, bit 3 (by omega), low 3 (by omega), low 0 (by omega)⟩
  rw [← field_field (lo := 22) (n := 6) (lo' := 4) w (by omega), h22]
  rfl

/-- The fixed bits of a canonical Branch word make it a Branch word. -/
theorem branchClass_of_canonical {w : Word} (h : field w 24 4 = 10) : field w 26 2 = 2 := by
  rw [← field_field (lo := 24) (n := 4) (lo' := 2) w (by omega), h]
  rfl

/-- The canonical words, by variant. -/
theorem canonicalWord_iff (w : Word) : Machine.CanonicalWord w ↔ CanonicalTest w (classify w) := by
  refine ⟨?_, fun h => ?_⟩
  · rintro (rfl | ⟨hw, h⟩ | h | ⟨hw, h⟩ | h)
    · rfl
    · rwa [classify_of_variantTest (v := .DataProcessing) hw]
    · rwa [classify_of_variantTest (v := .Multiply) (isMultiplyWord_of_canonical h)]
    · rwa [classify_of_variantTest (v := .SingleDataTransfer) hw]
    · rwa [classify_of_variantTest (v := .Branch) (branchClass_of_canonical h)]
  · have hw := variantTest_classify w
    cases hc : classify w <;> rw [hc] at hw h
    case Halt => exact .inl h
    case DataProcessing => exact .inr (.inl ⟨hw, h⟩)
    case Multiply => exact .inr (.inr (.inl h))
    case SingleDataTransfer => exact .inr (.inr (.inr (.inl ⟨hw, h⟩)))
    case Branch => exact .inr (.inr (.inr (.inr h)))

/-- Settles O5: both sides ask of each variant that its ignored bits have their canonical value. -/
theorem encodeDecodeExactlyCanonical : Obligations.EncodeDecodeExactlyCanonical := fun w =>
  (encode_decode_eq_iff w).trans (canonicalWord_iff w).symm

/-! ### Ignored bits -/

/-- Words that agree under a mask agree in every bit of the mask. -/
theorem getLsbD_eq_of_masked {w v mask : Word} (h : w &&& mask = v &&& mask) {i : Nat}
    (hi : mask.getLsbD i = true) : w.getLsbD i = v.getLsbD i := by
  have hbit := congrArg (·.getLsbD i) h
  simpa only [BitVec.getLsbD_and, hi, Bool.and_true] using hbit

/-- Words that agree under a mask agree in every field the mask covers. -/
theorem field_eq_of_masked {w v mask : Word} (h : w &&& mask = v &&& mask) {lo n : Nat}
    (hmask : field mask lo n = BitVec.allOnes n) : field w lo n = field v lo n := by
  refine BitVec.eq_of_getLsbD_eq fun i hi => ?_
  have hbit : mask.getLsbD (lo + i) = true := by
    simpa [hi, -BitVec.getLsbD_eq_getElem] using congrArg (·.getLsbD i) hmask
  simp only [getLsbD_field, getLsbD_eq_of_masked h hbit]

/-- Multiply words that differ in bits 24:22 and 6:5 only are read alike (R59). -/
theorem decode_eq_of_multiply_masked {w v : Word} (hw : Machine.IsMultiplyWord w)
    (h : w &&& 0xFE3FFF9F = v &&& 0xFE3FFF9F) : decode w = decode v := by
  have bit {i : Nat} (hi : (0xFE3FFF9F : Word).getLsbD i = true) := getLsbD_eq_of_masked h hi
  have fld {lo n : Nat} (hm : field (0xFE3FFF9F : Word) lo n = BitVec.allOnes n) := field_eq_of_masked h hm
  have hv : Machine.IsMultiplyWord v := by
    obtain ⟨hc, h25, h7, h4⟩ := hw
    exact ⟨(fld rfl).symm.trans hc, (bit rfl).symm.trans h25, (bit rfl).symm.trans h7,
      (bit rfl).symm.trans h4⟩
  rw [decode_of_isMultiplyWord hw, decode_of_isMultiplyWord hv, decodeMultiply, decodeMultiply,
    bit (i := 21) rfl, bit (i := 20) rfl, fld (lo := 28) (n := 4) rfl, fld (lo := 16) (n := 4) rfl,
    fld (lo := 12) (n := 4) rfl, fld (lo := 8) (n := 4) rfl, fld (lo := 0) (n := 4) rfl]

/-- The register form does not read bit 4 (R67). -/
theorem ShiftedReg.ofBits_eq_of_masked {w v : Word} (h : w &&& 0xFFFFFFEF = v &&& 0xFFFFFFEF) :
    ShiftedReg.ofBits (field w 0 12) = ShiftedReg.ofBits (field v 0 12) := by
  have fld {lo n : Nat} (hm : field (0xFFFFFFEF : Word) lo n = BitVec.allOnes n) := field_eq_of_masked h hm
  simp (disch := omega) only [ShiftedReg.ofBits, field_field, fld (lo := 0 + 7) (n := 5) rfl,
    fld (lo := 0 + 5) (n := 2) rfl, fld (lo := 0 + 0) (n := 4) rfl]

/-- DataProcessing words in the register form that differ in bit 4 only are read alike (R67). -/
theorem decode_eq_of_dataProcessing_masked {w v : Word} (hw : Machine.IsDataProcessingWord w)
    (hv : Machine.IsDataProcessingWord v) (h25 : w.getLsbD 25 = false)
    (h : w &&& 0xFFFFFFEF = v &&& 0xFFFFFFEF) : decode w = decode v := by
  have bit {i : Nat} (hi : (0xFFFFFFEF : Word).getLsbD i = true) := getLsbD_eq_of_masked h hi
  have fld {lo n : Nat} (hm : field (0xFFFFFFEF : Word) lo n = BitVec.allOnes n) := field_eq_of_masked h hm
  have hv25 : v.getLsbD 25 = false := (bit rfl).symm.trans h25
  have hop : Operand2.ofBits false (field w 0 12) = Operand2.ofBits false (field v 0 12) :=
    congrArg Operand2.reg (ShiftedReg.ofBits_eq_of_masked h)
  rw [Machine.decode_of_isDataProcessingWord hw, Machine.decode_of_isDataProcessingWord hv,
    decodeDataProcessing, decodeDataProcessing, h25, hv25, hop, bit (i := 20) rfl,
    fld (lo := 28) (n := 4) rfl, fld (lo := 21) (n := 4) rfl, fld (lo := 16) (n := 4) rfl,
    fld (lo := 12) (n := 4) rfl]

/-- Transfer words are read alike when they agree in the fields of R60 and their offsets are. -/
theorem decodeTransfer_eq_of_masked {w v mask : Word} (h : w &&& mask = v &&& mask)
    (hmask : mask &&& 0xFF9FF000 = 0xFF9FF000)
    (hoff : Offset.ofBits Config.hardware (w.getLsbD 25) (field w 0 12) =
      Offset.ofBits Config.hardware (v.getLsbD 25) (field v 0 12)) :
    decodeTransfer w = decodeTransfer v := by
  have h' : w &&& 0xFF9FF000 = v &&& 0xFF9FF000 := by
    rw [← hmask, ← BitVec.and_assoc, h, BitVec.and_assoc]
  have bit {i : Nat} (hi : (0xFF9FF000 : Word).getLsbD i = true) := getLsbD_eq_of_masked h' hi
  have fld {lo n : Nat} (hm : field (0xFF9FF000 : Word) lo n = BitVec.allOnes n) := field_eq_of_masked h' hm
  rw [decodeTransfer, decodeTransfer, hoff, bit (i := 20) rfl, bit (i := 23) rfl, bit (i := 24) rfl,
    fld (lo := 28) (n := 4) rfl, fld (lo := 16) (n := 4) rfl, fld (lo := 12) (n := 4) rfl]

/-- Transfer words that differ in bits 22:21 only are read alike (R60, R129). -/
theorem decode_eq_of_transfer_masked {w v : Word} (hw : field w 26 2 = 1)
    (h : w &&& 0xFF9FFFFF = v &&& 0xFF9FFFFF) : decode w = decode v := by
  have hv : field v 26 2 = 1 := (field_eq_of_masked h rfl).symm.trans hw
  rw [decode_of_transferClass hw, decode_of_transferClass hv]
  refine decodeTransfer_eq_of_masked h (by decide) ?_
  rw [getLsbD_eq_of_masked h (i := 25) rfl, field_eq_of_masked h (lo := 0) (n := 12) rfl]

/-- Transfer words in the register form that differ in bit 4 only are read alike (R67, R68). -/
theorem decode_eq_of_registerTransfer_masked {w v : Word} (hw : field w 26 2 = 1)
    (h25 : w.getLsbD 25 = true) (h : w &&& 0xFFFFFFEF = v &&& 0xFFFFFFEF) : decode w = decode v := by
  have hv : field v 26 2 = 1 := (field_eq_of_masked h rfl).symm.trans hw
  have hv25 : v.getLsbD 25 = true := (getLsbD_eq_of_masked h rfl).symm.trans h25
  rw [decode_of_transferClass hw, decode_of_transferClass hv]
  refine decodeTransfer_eq_of_masked h (by decide) ?_
  rw [h25, hv25]
  exact congrArg Offset.reg (ShiftedReg.ofBits_eq_of_masked h)

/-- Branch words that differ in bits 25:24 only are read alike (R61, R136). -/
theorem decode_eq_of_branch_masked {w v : Word} (hw : field w 26 2 = 2)
    (h : w &&& 0xFCFFFFFF = v &&& 0xFCFFFFFF) : decode w = decode v := by
  have hv : field v 26 2 = 2 := (field_eq_of_masked h rfl).symm.trans hw
  rw [Machine.decode_of_branchClass hw, Machine.decode_of_branchClass hv, decodeBranch, decodeBranch,
    field_eq_of_masked h (lo := 28) (n := 4) rfl, field_eq_of_masked h (lo := 0) (n := 24) rfl]

/-- Every word of class 11 is a Halt (R62). -/
theorem decode_of_haltClass {w : Word} (hw : field w 26 2 = 3) : decode w = .halt := by
  rw [decode, classify_of_variantTest (v := .Halt) (.inr hw)]

/-- Settles O7: the field tables read no ignored bit, and the meanings no ignored register field. -/
theorem ignoredBitsChangeNothing : Obligations.IgnoredBitsChangeNothing :=
  ⟨fun _ _ => decode_eq_of_multiply_masked, fun _ _ => decode_eq_of_transfer_masked,
    fun _ _ => decode_eq_of_branch_masked,
    fun _ _ hw h => (decode_of_haltClass hw).trans
      (decode_of_haltClass ((field_eq_of_masked h rfl).symm.trans hw)).symm,
    fun _ _ => decode_eq_of_dataProcessing_masked, fun _ _ => decode_eq_of_registerTransfer_masked,
    fun _ _ _ _ _ _ _ => ⟨rfl, rfl, rfl, rfl⟩, fun _ _ _ _ _ _ _ _ => rfl⟩

/-! ### Sample words and byte lists -/

/-- Settles O1: seven closed words, each evaluated. -/
theorem sampleWordsDecode : Obligations.SampleWordsDecode := by
  refine ⟨?_, ?_, ?_, ?_, ?_, ?_, ?_⟩ <;> decide

/-- Settles O3: the decoder's two patterns, told apart by the length of the list. -/
theorem fourBytesAreOneInstruction : Obligations.FourBytesAreOneInstruction := by
  intro bytes
  match bytes with
  | b0 :: b1 :: b2 :: b3 :: rest =>
    exact ⟨fun _ => ⟨decode (wordOfBytes b0 b1 b2 b3), rfl⟩, fun h => absurd h (by simp)⟩
  | [] | [_] | [_, _] | [_, _, _] => exact ⟨fun h => absurd h (by simp), fun _ => rfl⟩

end Sys2Proof
end

section
/-! PROOFS. Whole-machine rules: what a step keeps (O50, O52), the reports (O54), the C flag (O53) and the
refusals (O55). -/

namespace Sys2Proof.Machine

/-! ### Phase 2 and a whole step, as frames -/

/-- What a fetch leaves alone: everything but the latches and `pc` (R144). -/
structure FetchFrame (t u : State) : Prop where
  mem : u.mem = t.mem
  ctl : u.ctl = t.ctl
  reports : u.reports = t.reports
  slots : ∀ j, j ≠ pcSlot → u.read j = t.read j

theorem FetchFrame.cpsr {t u : State} (h : FetchFrame t u) : u.cpsr = t.cpsr :=
  h.slots cpsrSlot cpsrSlot_ne_pcSlot

theorem fetchFrame_of_fetchPhase {t u : State} (h : fetchPhase t = .next u) : FetchFrame t u := by
  obtain ⟨-, rfl⟩ | ⟨-, -, rfl⟩ := fetchPhase_next_cases h
  · exact ⟨rfl, rfl, rfl, fun _ _ => rfl⟩
  · exact ⟨rfl, rfl, rfl, fun j hj => read_write_of_ne _ _ _ _ hj⟩

/-- A step goes through a state that phase 1 left: the state itself when the run has ended, the discard, or
the executed instruction; a fetch does the rest. -/
theorem step_next_frame {s u : State} (h : step s = .next u) :
    ∃ t, (t = s ∨ t = s.setCtl .Continue ∨ exec (decode s.d) s = .next t) ∧ FetchFrame t u := by
  obtain ⟨-, rfl⟩ | ⟨-, -, t, hexec, hfetch⟩ | ⟨-, -, hfetch⟩ := step_next_cases h
  · exact ⟨u, .inl rfl, rfl, rfl, rfl, fun _ _ => rfl⟩
  · exact ⟨t, .inr (.inr hexec), fetchFrame_of_fetchPhase hfetch⟩
  · exact ⟨s.setCtl .Continue, .inr (.inl rfl), fetchFrame_of_fetchPhase hfetch⟩

/-! ### The flag register below its three written bits -/

/-- No instruction writes V or bits 27:0 (R29, R30). -/
theorem exec_keeps_low_flags {i : Instr} {s t : State} (h : exec i s = .next t) :
    field t.cpsr 0 29 = field s.cpsr 0 29 := by
  cases exec_next_cases h with
  | dataProcessing c w op sf rn rd op2 =>
    rw [dataProcessingEffect_cpsr]
    split
    · refine field_low_eq fun j hj => ?_
      rw [getLsbD_dataProcessingFlags, if_neg (by omega), if_neg (by omega), if_neg (by omega)]
    · rfl
  | multiply c sf rd res =>
    rw [multiplyEffect_cpsr]
    split
    · refine field_low_eq fun j hj => ?_
      rw [getLsbD_multiplyFlags, if_neg (by omega), if_neg (by omega)]
    · rfl
  | halt | failed | load | store | transferReported | taken | branchReported =>
    simp [loadWord, storeWord]

/-- No step writes V or bits 27:0 of the flag register. -/
theorem step_keeps_low_flags {s u : State} (h : step s = .next u) :
    field u.cpsr 0 29 = field s.cpsr 0 29 := by
  obtain ⟨t, rfl | rfl | hexec, hframe⟩ := step_next_frame h <;> rw [hframe.cpsr]
  · rfl
  · exact exec_keeps_low_flags hexec

theorem afterReset_read_of_ne (m : Memory) {j : Slot} (hj : j ≠ pcSlot) :
    (State.afterReset m).read j = 0 := by
  have h : (15 : Nat) ≠ j.val := fun e => hj (Fin.ext e.symm)
  simp [State.afterReset, State.read, h]

@[simp] theorem afterReset_pc (m : Memory) : (State.afterReset m).pc = 4 := rfl

@[simp] theorem afterReset_cpsr (m : Memory) : (State.afterReset m).cpsr = 0 := rfl

/-- Settles O52: a step is a phase 1 that keeps these bits and a fetch that keeps the flag register. -/
theorem lowFlagBitsNeverWritten : Obligations.LowFlagBitsNeverWritten :=
  ⟨fun _ _ => step_keeps_low_flags, afterReset_cpsr⟩

/-! ### Reports -/

/-- The reports an instruction can make (R155 to R157): the class it belongs to, and that the address lies
outside memory. -/
inductive ReportOf (i : Instr) : Report → Prop where
  | transfer (ea : Word) : i.variant = .SingleDataTransfer → inBounds ea = false →
      ReportOf i (.DataAddressOutOfBounds ea)
  | branch (target : Word) : i.variant = .Branch → inBounds target = false →
      ReportOf i (.BranchTargetOutOfBounds target)

theorem ReportOf.outside {i : Instr} {r : Report} (h : ReportOf i r) :
    inBounds (reportAddress r) = false := by
  cases h with
  | transfer ea _ hout => exact hout
  | branch target _ hout => exact hout

/-- An instruction reports nothing, or makes one report and does nothing else (R155, R160). -/
theorem exec_reports_cases {i : Instr} {s t : State} (h : exec i s = .next t) :
    t.reports = s.reports ∨ ∃ r, ReportOf i r ∧ t = s.reportAndContinue r := by
  cases exec_next_cases h with
  | transferReported ea hv hout => exact .inr ⟨_, .transfer ea hv hout, rfl⟩
  | branchReported c offset hi _ hout => exact .inr ⟨_, .branch _ (hi ▸ rfl) hout, rfl⟩
  | halt | failed | dataProcessing | multiply | load | store | taken =>
    exact .inl (by simp [loadWord, storeWord])

/-- Settles O54: the one report an instruction can make, carried over the fetch. -/
theorem reportsAreAppended : Obligations.ReportsAreAppended := by
  refine ⟨fun s u h => ?step, fun i s t h hne => ?instruction⟩
  case step =>
    obtain ⟨t, rfl | rfl | hexec, hframe⟩ := step_next_frame h
    · exact .inl hframe.reports
    · exact .inl hframe.reports
    · obtain hkept | ⟨r, -, rfl⟩ := exec_reports_cases hexec
      · exact .inl (hframe.reports.trans hkept)
      · exact .inr ⟨r, hframe.reports, hframe.ctl⟩
  case instruction =>
    obtain hkept | ⟨r, hr, rfl⟩ := exec_reports_cases h
    · exact absurd hkept hne
    · refine ⟨rfl, ?_⟩
      cases hr with
      | transfer ea hv _ => exact .inl ⟨ea, rfl, hv⟩
      | branch target hv _ => exact .inr ⟨target, rfl, hv⟩

/-! ### The invariant -/

/-- An instruction changes memory by one word store at most (R126). -/
theorem exec_mem_cases {i : Instr} {s t : State} (h : exec i s = .next t) :
    t.mem = s.mem ∨ ∃ a v, a ≤ 65532 ∧ t.mem = s.mem.writeWord a v := by
  cases exec_next_cases h with
  | store c pre up rn rd off _ _ hea =>
    exact .inr ⟨_, _, hea, congrArg (Memory.writeWord · _ _) (baseWrittenBack_mem pre up rn off s)⟩
  | halt | failed | dataProcessing | multiply | load | transferReported | taken | branchReported =>
    exact .inl (by simp [loadWord])

theorem exec_keeps_inv {i : Instr} {s t : State} (hs : Inv s) (h : exec i s = .next t) : Inv t where
  mem_wf := by
    obtain hmem | ⟨a, v, ha, hmem⟩ := exec_mem_cases h <;> rw [hmem]
    · exact hs.mem_wf
    · exact Memory.writeWord_wf hs.mem_wf v ha
  low_flags := (exec_keeps_low_flags h).trans hs.low_flags
  reports_outside := by
    obtain hkept | ⟨r, hr, rfl⟩ := exec_reports_cases h
    · rw [hkept]
      exact hs.reports_outside
    · intro r' hr'
      obtain hold | rfl : r' ∈ s.reports ∨ r' = r := by simpa using hr'
      · exact hs.reports_outside r' hold
      · exact hr.outside

/-- Settles O50: phase 1 keeps the invariant, and a fetch touches none of its parts. -/
theorem stepKeepsInvariant : Obligations.StepKeepsInvariant := by
  intro s u hs h
  obtain ⟨t, hphase1, hframe⟩ := step_next_frame h
  have ht : Inv t := by
    obtain rfl | rfl | hexec := hphase1
    · exact hs
    · exact ⟨hs.mem_wf, hs.low_flags, hs.reports_outside⟩
    · exact exec_keeps_inv hs hexec
  refine ⟨?_, ?_, ?_⟩
  · rw [hframe.mem]
    exact ht.mem_wf
  · rw [hframe.cpsr]
    exact ht.low_flags
  · rw [hframe.reports]
    exact ht.reports_outside

/-! ### The C flag -/

section AgreeButC
variable {s s' : State} (h : AgreeButC s s')
include h

theorem AgreeButC.read_slotOf (r : Reg) : s'.read (slotOf r) = s.read (slotOf r) :=
  h.slots _ (slotOf_ne_cpsrSlot r)

theorem AgreeButC.pc : s'.pc = s.pc := h.slots _ pcSlot_ne_cpsrSlot

theorem AgreeButC.stopped : s'.stopped = s.stopped := by
  rw [State.stopped, State.stopped, h.ctl, h.pc]

/-- No condition reads C (R28, R88). -/
theorem AgreeButC.conditionPassed (c : Cond) : conditionPassed c s'.flags = conditionPassed c s.flags := by
  have hn : s'.flags.n = s.flags.n := h.bits 31 (by decide)
  have hz : s'.flags.z = s.flags.z := h.bits 30 (by decide)
  have hv : s'.flags.v = s.flags.v := h.bits 28 (by decide)
  cases c <;> simp only [Machine.conditionPassed, hn, hz, hv]

theorem AgreeButC.shiftedValue (sr : ShiftedReg) : shiftedValue sr s' = shiftedValue sr s := by
  rw [Machine.shiftedValue, Machine.shiftedValue, h.read_slotOf]

theorem AgreeButC.operand2Value (op2 : Operand2) : operand2Value op2 s' = operand2Value op2 s := by
  cases op2 with
  | imm rot imm8 => rfl
  | reg sr => exact h.shiftedValue sr

theorem AgreeButC.indexedBase (up : Bool) (rn : Reg) (off : Offset) :
    indexedBase up rn off s' = indexedBase up rn off s := by
  have hoff : offsetValue off s' = offsetValue off s := by
    cases off with
    | imm bytes => rfl
    | reg sr => exact h.shiftedValue sr
  rw [Machine.indexedBase, Machine.indexedBase, h.read_slotOf, signedOffset, signedOffset, hoff]

theorem AgreeButC.effectiveAddress (pre up : Bool) (rn : Reg) (off : Offset) :
    effectiveAddress pre up rn off s' = effectiveAddress pre up rn off s := by
  rw [Machine.effectiveAddress, Machine.effectiveAddress, h.indexedBase, h.read_slotOf]

theorem AgreeButC.setCtl (c : Ctl) : AgreeButC (s.setCtl c) (s'.setCtl c) :=
  { h with ctl := rfl }

theorem AgreeButC.setMem (m : Memory) : AgreeButC (s.setMem m) (s'.setMem m) :=
  { h with mem := rfl }

theorem AgreeButC.setLatches (f d : Word) : AgreeButC (s.setLatches f d) (s'.setLatches f d) :=
  { h with f := rfl, d := rfl }

theorem AgreeButC.reportAndContinue (r : Report) :
    AgreeButC (s.reportAndContinue r) (s'.reportAndContinue r) :=
  { h with ctl := rfl, reports := congrArg (· ++ [r]) h.reports }

/-- The same word written into the same slot, whichever it is. -/
theorem AgreeButC.write (i : Slot) (v : Word) : AgreeButC (s.write i v) (s'.write i v) where
  slots j hj := by rw [read_write, read_write, h.slots j hj]
  bits k hk := by
    simp only [State.cpsr, read_write]
    split
    · rfl
    · exact h.bits k hk
  mem := h.mem
  f := h.f
  d := h.d
  ctl := h.ctl
  reports := h.reports

/-- Flag registers that differ in C at most. -/
theorem AgreeButC.writeCpsr {v v' : Word} (hv : ∀ k, k ≠ 29 → v'.getLsbD k = v.getLsbD k) :
    AgreeButC (s.write cpsrSlot v) (s'.write cpsrSlot v') where
  slots j hj := by rw [read_write_of_ne _ _ _ _ hj, read_write_of_ne _ _ _ _ hj, h.slots j hj]
  bits k hk := by rw [write_cpsr_cpsr, write_cpsr_cpsr, hv k hk]
  mem := h.mem
  f := h.f
  d := h.d
  ctl := h.ctl
  reports := h.reports

theorem AgreeButC.dataProcessingEffect (cfg : Config) (w : Bool) (op : Word → Word → AluOutput) (sf : Bool)
    (rn rd : Reg) (op2 : Operand2) :
    AgreeButC (dataProcessingEffect cfg w op sf rn rd op2 s)
      (dataProcessingEffect cfg w op sf rn rd op2 s') := by
  rw [Machine.dataProcessingEffect, Machine.dataProcessingEffect, h.read_slotOf, h.operand2Value]
  have hflags (shC shC' : Option Bool) (res : Word) (aluC : Option Bool) (k : Nat) (hk : k ≠ 29) :
      (dataProcessingFlags s'.cpsr shC' res aluC).getLsbD k =
        (dataProcessingFlags s.cpsr shC res aluC).getLsbD k := by
    simp only [getLsbD_dataProcessingFlags, if_neg hk, h.bits k hk]
  refine AgreeButC.setCtl ?_ _
  cases w <;> cases sf
  · exact h
  · exact h.writeCpsr (hflags _ _ _ _)
  · exact h.write _ _
  · exact (h.write _ _).writeCpsr (hflags _ _ _ _)

theorem AgreeButC.multiplyEffect (sf : Bool) (rd : Reg) (res : Word) :
    AgreeButC (multiplyEffect Config.hardware sf rd res s) (multiplyEffect Config.hardware sf rd res s') := by
  rw [Machine.multiplyEffect, Machine.multiplyEffect]
  refine AgreeButC.setCtl ?_ _
  cases sf with
  | false => exact h.write _ _
  | true =>
    refine (h.write _ _).writeCpsr fun k hk => ?_
    simp only [getLsbD_multiplyFlags, h.bits 31 (by decide), h.bits 30 (by decide), h.bits k hk]

theorem AgreeButC.branchEffect (offset : BitVec 24) :
    AgreeButC (branchEffect offset s) (branchEffect offset s') := by
  have htarget : branchTarget offset s' = branchTarget offset s := by
    rw [branchTarget, branchTarget, h.pc]
  simp only [Machine.branchEffect, htarget]
  split
  · exact (h.write _ _).setCtl _
  · exact h.reportAndContinue _

theorem AgreeButC.baseWrittenBack (pre up : Bool) (rn : Reg) (off : Offset) :
    AgreeButC (baseWrittenBack pre up rn off s) (baseWrittenBack pre up rn off s') := by
  rw [Machine.baseWrittenBack, Machine.baseWrittenBack, h.indexedBase]
  cases pre with
  | true => exact h
  | false => exact h.write _ _

theorem AgreeButC.loadWord (rd : Reg) (ea : Word) : AgreeButC (loadWord rd ea s) (loadWord rd ea s') := by
  rw [Machine.loadWord, Machine.loadWord, h.mem]
  exact h.write _ _

theorem AgreeButC.storeWord (rd : Reg) (ea : Word) : AgreeButC (storeWord rd ea s) (storeWord rd ea s') := by
  rw [Machine.storeWord, Machine.storeWord, h.mem, h.read_slotOf]
  exact h.setMem _

end AgreeButC

/-- Two outcomes that agree: next states that differ in C at most, or the same refusal. -/
inductive AgreeResult : Result → Result → Prop where
  | next {t t' : State} : AgreeButC t t' → AgreeResult (.next t) (.next t')
  | refused (r : Refusal) : AgreeResult (.refused r) (.refused r)

section AgreeResult
variable {s s' : State} (h : AgreeButC s s')
include h

theorem AgreeButC.whenPassed (c : Cond) {e e' : Result} (he : AgreeResult e e') :
    AgreeResult (whenPassed c s e) (whenPassed c s' e') := by
  rw [Machine.whenPassed, Machine.whenPassed, h.conditionPassed]
  split
  · exact he
  · exact .next (h.setCtl _)

theorem AgreeButC.dataProcessing (w : Bool) (op : Word → Word → AluOutput) (c : Cond) (sf : Bool)
    (rn rd : Reg) (op2 : Operand2) :
    AgreeResult (dataProcessing Config.hardware w op c sf rn rd op2 s)
      (dataProcessing Config.hardware w op c sf rn rd op2 s') :=
  h.whenPassed c (.next (h.dataProcessingEffect _ w op sf rn rd op2))

theorem AgreeButC.reservedDataProcessing (o : Opcode) (c : Cond) :
    AgreeResult (reservedDataProcessing o c s) (reservedDataProcessing o c s') :=
  h.whenPassed c (.refused _)

theorem AgreeButC.transfer {move : Reg → Word → State → State}
    (hmove : ∀ {t t' : State}, AgreeButC t t' → ∀ r a, AgreeButC (move r a t) (move r a t'))
    (pre up : Bool) (rn rd : Reg) (off : Offset) :
    AgreeResult (transfer Config.hardware move pre up rn rd off s)
      (transfer Config.hardware move pre up rn rd off s') := by
  simp only [Machine.transfer, h.effectiveAddress]
  split
  · split
    · exact .refused _
    · exact .next ((hmove (h.baseWrittenBack pre up rn off) _ _).setCtl _)
  · exact .next (h.reportAndContinue _)

theorem AgreeButC.exec (i : Instr) : AgreeResult (exec i s) (exec i s') := by
  cases i with
  | halt => exact .next (h.setCtl _)
  | mul c sf rd rn rs rm =>
    have hp : product rs rm s' = product rs rm s := by rw [product, product, h.read_slotOf, h.read_slotOf]
    rw [Machine.exec, Machine.exec, execMul, execMul, hp]
    exact h.whenPassed c (.next (h.multiplyEffect _ _ _))
  | mla c sf rd rn rs rm =>
    have hp : product rs rm s' = product rs rm s := by rw [product, product, h.read_slotOf, h.read_slotOf]
    rw [Machine.exec, Machine.exec, execMla, execMla, hp, h.read_slotOf]
    exact h.whenPassed c (.next (h.multiplyEffect _ _ _))
  | and | eor | sub | rsb | add | orr | mov => exact h.dataProcessing true _ _ _ _ _ _
  | tst | teq | cmp => exact h.dataProcessing false _ _ _ _ _ _
  | reserved0101 | reserved0110 | reserved0111 | reserved1011 | reserved1110 | reserved1111 =>
    exact h.reservedDataProcessing _ _
  | ldr c pre up rn rd off => exact h.whenPassed c (h.transfer AgreeButC.loadWord pre up rn rd off)
  | str c pre up rn rd off => exact h.whenPassed c (h.transfer AgreeButC.storeWord pre up rn rd off)
  | b c offset => exact h.whenPassed c (.next (h.branchEffect offset))

theorem AgreeButC.fetchPhase : AgreeResult (fetchPhase s) (fetchPhase s') := by
  rw [Machine.fetchPhase, Machine.fetchPhase, h.stopped, h.pc, h.mem, h.f]
  split
  · exact .next h
  · split
    · exact .refused _
    · exact .next ((h.setLatches _ _).write _ _)

theorem AgreeButC.step : AgreeResult (step s) (step s') := by
  rw [Machine.step, Machine.step, cycle, cycle, h.stopped, h.ctl, h.d]
  split
  · exact .next h
  · split
    · generalize hr : Machine.exec (decode s.d) s = r, hr' : Machine.exec (decode s.d) s' = r'
      have hexec : AgreeResult r r' := hr ▸ hr' ▸ h.exec (decode s.d)
      cases hexec with
      | next ht => exact ht.fetchPhase
      | refused r => exact .refused r
    · exact (h.setCtl _).fetchPhase
    · exact .next h

end AgreeResult

/-- Settles O53: the outcomes of the two steps agree. -/
theorem carryIsNeverRead : Obligations.CarryIsNeverRead := by
  intro s s' h
  have hstep := h.step
  refine ⟨fun t ht => ?_, fun r hr => ?_⟩
  · rw [ht] at hstep
    generalize step s' = r' at hstep
    cases hstep with
    | next hagree => exact ⟨_, rfl, hagree⟩
  · rw [hr] at hstep
    generalize step s' = r' at hstep
    cases hstep
    rfl

/-! ### Refusals -/

/-- The opcodes that have no operation (R72). -/
def reservedOpcodeList : List Opcode :=
  [.reserved0101, .reserved0110, .reserved0111, .reserved1011, .reserved1110, .reserved1111]

/-- An instruction with a reserved opcode whose condition passes (R112, decision D7). -/
def MeetsReservedOpcode (i : Instr) (s : State) : Prop :=
  ∃ (o : Opcode) (c : Cond) (sf : Bool) (rn rd : Reg) (op2 : Operand2),
    o ∈ reservedOpcodeList ∧ i = o.instr c sf rn rd op2 ∧ conditionPassed c s.flags = true

/-- A transfer whose condition passes and whose four bytes straddle the end of memory (R42, decision D13). -/
def MeetsStraddlingAccess (i : Instr) (s : State) : Prop :=
  ∃ (c : Cond) (pre up : Bool) (rn rd : Reg) (off : Offset),
    (i = .ldr c pre up rn rd off ∨ i = .str c pre up rn rd off) ∧
    conditionPassed c s.flags = true ∧
    65532 < (effectiveAddress pre up rn off s).toNat ∧ (effectiveAddress pre up rn off s).toNat < 65536

/-- Behind the gate a refusal is the effect's. -/
theorem whenPassed_eq_refused_iff {c : Cond} {s : State} {e : Result} {r : Refusal} :
    whenPassed c s e = .refused r ↔ conditionPassed c s.flags = true ∧ e = .refused r := by
  obtain ⟨hp, he⟩ | ⟨hp, he⟩ := whenPassed_cases c s e <;> simp [he, hp]

theorem exec_reserved {o : Opcode} (ho : o ∈ reservedOpcodeList) (c : Cond) (sf : Bool) (rn rd : Reg)
    (op2 : Operand2) (s : State) :
    exec (o.instr c sf rn rd op2) s = whenPassed c s (.refused (.reservedOpcode o)) := by
  cases o with
  | reserved0101 | reserved0110 | reserved0111 | reserved1011 | reserved1110 | reserved1111 => rfl
  | _ => exact absurd ho (by decide)

/-- A defined opcode behind an open gate has a next state. -/
theorem exec_defined_ne_refused {o : Opcode} (ho : o ∉ reservedOpcodeList) (c : Cond) (sf : Bool)
    (rn rd : Reg) (op2 : Operand2) (s : State) (r : Refusal) :
    exec (o.instr c sf rn rd op2) s ≠ .refused r := by
  have hdefined {w : Bool} {op : Word → Word → AluOutput} :
      dataProcessing Config.hardware w op c sf rn rd op2 s ≠ .refused r := fun h => by
    obtain ⟨-, he⟩ := whenPassed_eq_refused_iff.mp h
    cases he
  cases o with
  | and | eor | sub | rsb | add | orr | mov | tst | teq | cmp => exact hdefined
  | _ => exact absurd (by decide) ho

/-- A transfer is refused in the straddling range only. -/
theorem transfer_eq_refused {move : Reg → Word → State → State} {pre up : Bool} {rn rd : Reg} {off : Offset}
    {s : State} {r : Refusal} (h : transfer Config.hardware move pre up rn rd off s = .refused r) :
    65532 < (effectiveAddress pre up rn off s).toNat ∧ (effectiveAddress pre up rn off s).toNat < 65536 := by
  obtain ⟨-, he⟩ | ⟨hstraddles, -⟩ | ⟨-, he⟩ := transfer_cases move pre up rn rd off s
  · rw [he] at h
    cases h
  · exact (straddles_iff _).mp hstraddles
  · rw [he] at h
    cases h

/-- The two ways an instruction is refused. -/
theorem exec_refused_iff {i : Instr} {s : State} :
    (∃ r, exec i s = .refused r) ↔ MeetsReservedOpcode i s ∨ MeetsStraddlingAccess i s := by
  constructor
  · rintro ⟨r, h⟩
    by_cases hv : i.variant = .DataProcessing
    · obtain ⟨o, c, sf, rn, rd, op2, rfl⟩ := exists_instr_of_variant_dataProcessing hv
      by_cases ho : o ∈ reservedOpcodeList
      · rw [exec_reserved ho] at h
        exact .inl ⟨o, c, sf, rn, rd, op2, ho, rfl, (whenPassed_eq_refused_iff.mp h).1⟩
      · exact absurd h (exec_defined_ne_refused ho c sf rn rd op2 s r)
    · cases i with
      | halt => cases h
      | mul | mla | b =>
        obtain ⟨-, he⟩ := whenPassed_eq_refused_iff.mp h
        cases he
      | ldr c pre up rn rd off =>
        obtain ⟨hp, he⟩ := whenPassed_eq_refused_iff.mp h
        exact .inr ⟨c, pre, up, rn, rd, off, .inl rfl, hp, transfer_eq_refused he⟩
      | str c pre up rn rd off =>
        obtain ⟨hp, he⟩ := whenPassed_eq_refused_iff.mp h
        exact .inr ⟨c, pre, up, rn, rd, off, .inr rfl, hp, transfer_eq_refused he⟩
      | _ => exact absurd rfl hv
  · rintro (⟨o, c, sf, rn, rd, op2, ho, rfl, hp⟩ | ⟨c, pre, up, rn, rd, off, hi, hp, hlo, hhi⟩)
    · exact ⟨_, (exec_reserved ho c sf rn rd op2 s).trans (whenPassed_passed _ hp)⟩
    · refine ⟨.straddlingAccess (effectiveAddress pre up rn off s), ?_⟩
      obtain rfl | rfl := hi
      · exact (whenPassed_passed _ hp).trans (transfer_straddling _ _ _ _ _ _ _ _ hlo hhi)
      · exact (whenPassed_passed _ hp).trans (transfer_straddling _ _ _ _ _ _ _ _ hlo hhi)

/-- A fetch is refused at 65533 to 65535 only (R42, R144). -/
theorem fetchPhase_refused_iff {t : State} :
    (∃ r, fetchPhase t = .refused r) ↔ t.ctl ≠ .Stop ∧ 65532 < t.pc.toNat ∧ t.pc.toNat < 65536 := by
  obtain ⟨hs, he⟩ | ⟨hc, hp, he⟩ | ⟨hc, hp, he⟩ := fetchPhase_cases t <;> rw [he]
  · obtain hstop | hout := (stopped_iff t).mp hs
    · simp [hstop]
    · simp [hout]
  · simpa [hc] using (straddles_iff _).mp hp
  · simp [hp]

/-- Phase 1 and phase 2 together are refused where either is. -/
theorem thenFetch_refused_iff {e : Result} :
    (∃ r, thenFetch e = .refused r) ↔
      (∃ r, e = .refused r) ∨ ∃ t, e = .next t ∧ ∃ r, fetchPhase t = .refused r := by
  cases e with
  | next t => simp [thenFetch]
  | fault r => cases r
  | refused r => simp [thenFetch]

/-- Settles O55: a step is refused where its phase 1 is or its fetch is. -/
theorem refusedExactlyWhereSpecGivesNoMeaning : Obligations.RefusedExactlyWhereSpecGivesNoMeaning := by
  intro s
  change _ ↔ s.stopped = false ∧ ((s.ctl = .Continue ∧ MeetsReservedOpcode (decode s.d) s) ∨
    (s.ctl = .Continue ∧ MeetsStraddlingAccess (decode s.d) s) ∨ _)
  cases hs : s.stopped with
  | true => simp [step_stopped hs]
  | false =>
    obtain ⟨-, hpc⟩ := (not_stopped_iff s).mp hs
    cases hctl : s.ctl with
    | Continue =>
      rw [step_continue hs hctl, thenFetch_refused_iff, exec_refused_iff]
      simp [fetchPhase_refused_iff, or_assoc]
    | Skip =>
      rw [step_skip hs hctl, fetchPhase_refused_iff]
      simp [discardWord, hpc]
    | Stop => exact absurd ((stopped_iff s).mpr (.inl hctl)) (by simp [hs])

end Sys2Proof.Machine
end

section
/-! PROOFS. The family 41_data_processing.md, continued: the shifter's C (O11, O13), the logical instructions
(O14, O15, O19, O20, O22, O23), the reserved opcodes (O24), and the slots an instruction writes (O26). -/

namespace Sys2Proof.Machine

/-- Settles O11: amount 0 is the shifter's first case, and of its carries only that of a left shift depends
on the parameter. -/
theorem zeroAmountPassesThrough : Obligations.ZeroAmountPassesThrough := by
  intro kind v sf
  refine ⟨rfl, ?_, rfl⟩
  cases kind with
  | lsl => cases sf <;> rfl
  | lsr | asr | ror => rfl

/-- Settles O13: a transfer has no S bit, and only an S bit lets the flag register change. -/
theorem shifterCarryIsIndexedBit : Obligations.ShifterCarryIsIndexedBit := by
  refine ⟨operand2Carry_hardware, fun c pre up rn rd off s t h => congrArg (fun w => (flagsOf w).c) ?_⟩
  by_contra hne
  obtain h | h := h <;> exact Bool.false_ne_true (sBit_of_exec_changes_cpsr h hne).1

/-- Settles O14: the common sequence with the ALU's conjunction. -/
theorem andRule : Obligations.AndRule :=
  ⟨dataProcessingEncoding_instr .and,
    dataProcessingResult_of_exec (op := aluAnd) (fun _ _ _ _ _ _ => rfl) fun _ _ => rfl⟩

/-- Settles O15: the common sequence with the ALU's exclusive disjunction. -/
theorem eorRule : Obligations.EorRule :=
  ⟨dataProcessingEncoding_instr .eor,
    dataProcessingResult_of_exec (op := aluEor) (fun _ _ _ _ _ _ => rfl) fun _ _ => rfl⟩

/-- Settles O19: AND's ALU operation in the common sequence that writes no `rd`. -/
theorem tstRule : Obligations.TstRule :=
  ⟨dataProcessingEncoding_instr .tst,
    dataProcessingResult_of_exec (op := aluAnd) (fun _ _ _ _ _ _ => rfl) fun _ _ => rfl⟩

/-- Settles O20: EOR's ALU operation in the common sequence that writes no `rd`. -/
theorem teqRule : Obligations.TeqRule :=
  ⟨dataProcessingEncoding_instr .teq,
    dataProcessingResult_of_exec (op := aluEor) (fun _ _ _ _ _ _ => rfl) fun _ _ => rfl⟩

/-- Settles O22: the common sequence with the ALU's disjunction. -/
theorem orrRule : Obligations.OrrRule :=
  ⟨dataProcessingEncoding_instr .orr,
    dataProcessingResult_of_exec (op := aluOrr) (fun _ _ _ _ _ _ => rfl) fun _ _ => rfl⟩

/-- Settles O23: the common sequence with the second operand as the result. -/
theorem movRule : Obligations.MovRule :=
  ⟨dataProcessingEncoding_instr .mov,
    dataProcessingResult_of_exec (op := aluMov) (fun _ _ _ _ _ _ => rfl) fun _ _ => rfl⟩

/-- The rule of one reserved opcode: its encoding, and its refusal behind the gate of the condition. -/
theorem reservedOpcode_rule {o : Opcode} (ho : o ∈ reservedOpcodeList) :
    DataProcessingEncoding o.toBits o.instr ∧
    ∀ (c : Cond) (sf : Bool) (rn rd : Reg) (op2 : Operand2) (s : State),
      (conditionPassed c s.flags = false →
        exec (o.instr c sf rn rd op2) s = .next { s with ctl := .Continue }) ∧
      (conditionPassed c s.flags = true →
        exec (o.instr c sf rn rd op2) s = .refused (.reservedOpcode o)) := by
  refine ⟨dataProcessingEncoding_instr o, fun c sf rn rd op2 s => ?_⟩
  rw [exec_reserved ho]
  exact ⟨whenPassed_failed _, whenPassed_passed _⟩

/-- Settles O24: the rule of a reserved opcode, for each of the six. -/
theorem reservedOpcodes : Obligations.ReservedOpcodes := by
  intro p hp
  simp only [List.mem_cons, List.not_mem_nil, or_false] at hp
  obtain rfl | rfl | rfl | rfl | rfl | rfl := hp
  · exact reservedOpcode_rule (o := .reserved0101) (by decide)
  · exact reservedOpcode_rule (o := .reserved0110) (by decide)
  · exact reservedOpcode_rule (o := .reserved0111) (by decide)
  · exact reservedOpcode_rule (o := .reserved1011) (by decide)
  · exact reservedOpcode_rule (o := .reserved1110) (by decide)
  · exact reservedOpcode_rule (o := .reserved1111) (by decide)

/-- Settles O26: the slots written in each case of `exec` are in the instruction's row of R19. -/
theorem onlyNamedSlotsWritten : Obligations.OnlyNamedSlotsWritten := by
  intro i s t h j hj hcpsr
  cases exec_next_cases h with
  | halt | failed | transferReported | branchReported => rfl
  | dataProcessing c w op sf rn rd op2 _ _ _ _ hw =>
    rw [dataProcessingEffect_read _ _ _ _ _ _ _ _ hcpsr, if_neg]
    rintro ⟨hwrites, rfl⟩
    exact hj (by simp [hw hwrites])
  | multiply c sf rd res _ _ _ _ hw =>
    rw [multiplyEffect_read _ _ _ _ _ hcpsr, if_neg]
    rintro rfl
    exact hj (by simp [hw])
  | load c pre up rn rd off hi =>
    subst hi
    have hrd : j ≠ slotOf rd := by
      rintro rfl
      exact hj (by cases pre <;> simp [mayWrite])
    have hrn : ¬ (pre = false ∧ j = slotOf rn) := by
      rintro ⟨rfl, rfl⟩
      exact hj (by simp [mayWrite])
    rw [setCtl_read, loadWord, read_write_of_ne _ _ _ _ hrd, baseWrittenBack_read, if_neg hrn]
  | store c pre up rn rd off hi =>
    subst hi
    have hrn : ¬ (pre = false ∧ j = slotOf rn) := by
      rintro ⟨rfl, rfl⟩
      exact hj (by simp [mayWrite])
    rw [setCtl_read, storeWord, setMem_read, baseWrittenBack_read, if_neg hrn]
  | taken c offset hi =>
    subst hi
    exact read_write_of_ne _ _ _ _ fun e => hj (by simp [mayWrite, e])

end Sys2Proof.Machine
end

section
/-! PROOFS. The family 42_multiply.md: the flag table (O29), MUL and MLA (O27, O28). -/

namespace Sys2Proof.Machine

/-- The flags after a multiply with S = 1: set by the result, never cleared (R117, decision D10). -/
theorem flagsOf_multiplyFlags (cpsr res : Word) :
    flagsOf (multiplyFlags Config.hardware cpsr res) =
      { flagsOf cpsr with
        n := (flagsOf cpsr).n || res.getLsbD 31
        z := (flagsOf cpsr).z || decide (res = 0) } := by
  simp [flagsOf, getLsbD_multiplyFlags, -BitVec.getLsbD_eq_getElem]

/-- Bits of the flag register that no multiply writes, whatever the parameter (R30). -/
theorem getLsbD_multiplyFlags_low (cfg : Config) (cpsr res : Word) {j : Nat} (hj : j < 30) :
    (multiplyFlags cfg cpsr res).getLsbD j = cpsr.getLsbD j := by
  have h31 : j ≠ 31 := by omega
  have h30 : j ≠ 30 := by omega
  unfold multiplyFlags
  split
  · rw [getLsbD_setBit _ _ _ _ (by omega), if_neg h30, getLsbD_setBit _ _ _ _ (by omega), if_neg h31]
  · split
    · rw [getLsbD_setBit _ _ _ _ (by omega), if_neg h31]
    · split
      · rw [getLsbD_setBit _ _ _ _ (by omega), if_neg h30]
      · rfl

theorem field_multiplyFlags_low (cfg : Config) (cpsr res : Word) :
    field (multiplyFlags cfg cpsr res) 0 28 = field cpsr 0 28 := by
  refine BitVec.eq_of_getLsbD_eq fun i hi => ?_
  rw [getLsbD_field, getLsbD_field, getLsbD_multiplyFlags_low _ _ _ (by omega)]

/-- Settles O29: the flags by bit, in the cases of the result. -/
theorem multiplyFlagTable : Obligations.MultiplyFlagTable := by
  intro cpsr res
  refine ⟨fun hneg => ?negative, fun hzero => ?zero, fun hpos hne => ?positive, ?clears,
    fun cfg => field_multiplyFlags_low cfg cpsr res⟩
  case negative =>
    have hne : res ≠ 0 := by rintro rfl; cases hneg
    simp only [flagsOf_multiplyFlags, hneg, hne, decide_false, Bool.or_true, Bool.or_false]
  case zero =>
    subst hzero
    have hpos : (0 : Word).getLsbD 31 = false := rfl
    simp only [flagsOf_multiplyFlags, hpos, decide_true, Bool.or_true, Bool.or_false]
  case positive => simp only [multiplyFlags, Config.hardware, hpos, hne, Bool.false_eq_true, if_false]
  case clears =>
    simp [multiplyFlags, flagsOf, getLsbD_setBit, -BitVec.getLsbD_eq_getElem]

/-- The product of R114 in unbounded arithmetic. -/
theorem product_eq_ofNat (rs rm : Reg) (s : State) :
    product rs rm s = BitVec.ofNat 32 ((s.read (slotOf rm)).toNat * (s.read (slotOf rs)).toNat) := by
  refine BitVec.eq_of_toNat_eq ?_
  rw [product, BitVec.toNat_mul, BitVec.toNat_ofNat]

/-- The sum of R116 in unbounded arithmetic. -/
theorem product_add_eq_ofNat (rn rs rm : Reg) (s : State) :
    product rs rm s + s.read (slotOf rn) =
      BitVec.ofNat 32 ((s.read (slotOf rm)).toNat * (s.read (slotOf rs)).toNat +
        (s.read (slotOf rn)).toNat) := by
  rw [product_eq_ofNat, ← BitVec.ofNat_add_ofNat, BitVec.ofNat_toNat, BitVec.setWidth_eq]

/-- A multiply whose condition passes (R114): the result in `rd`, the flags of R117, the frame. -/
theorem multiply_completes {c : Cond} {s : State} (hp : conditionPassed c s.flags = true) (sf : Bool)
    (rd : Reg) {res : Word} {n : Nat} (hres : res = BitVec.ofNat 32 n) :
    ∃ t, whenPassed c s (.next (multiplyEffect Config.hardware sf rd res s)) = .next t ∧
      t.ctl = .Continue ∧ t.read (slotOf rd) = BitVec.ofNat 32 n ∧
      (∀ i, i ≠ cpsrSlot → i ≠ slotOf rd → t.read i = s.read i) ∧ (sf = false → t.cpsr = s.cpsr) ∧
      (sf = true → MultiplyFlagsSetOnly (t.read (slotOf rd)) s t) ∧ SameOutside s t := by
  have hrd : (multiplyEffect Config.hardware sf rd res s).read (slotOf rd) = res := by
    rw [multiplyEffect_read _ _ _ _ _ (slotOf_ne_cpsrSlot rd), if_pos rfl]
  refine ⟨_, whenPassed_passed _ hp, multiplyEffect_ctl _ _ _ _ _, hrd.trans hres,
    fun i hi hne => ?frame, ?noS, ?withS, by simp [SameOutside]⟩
  case frame => rw [multiplyEffect_read _ _ _ _ _ hi, if_neg hne]
  case noS =>
    rintro rfl
    rw [multiplyEffect_cpsr, if_neg Bool.false_ne_true]
  case withS =>
    rintro rfl
    simp only [hrd, MultiplyFlagsSetOnly, State.flags, multiplyEffect_cpsr, if_true,
      flagsOf_multiplyFlags, field_multiplyFlags_low, and_self]

/-- Settles O27: a multiply with the product as its result. -/
theorem mulRule : Obligations.MulRule := by
  refine ⟨fun w hw h21 => ?_, fun c sf rd rn rs rm s hp =>
    multiply_completes hp sf rd (product_eq_ofNat rs rm s)⟩
  rw [decode_of_isMultiplyWord hw, decodeMultiply, if_neg (Bool.eq_false_iff.mp h21)]

/-- Settles O28: a multiply with the sum as its result. -/
theorem mlaRule : Obligations.MlaRule := by
  refine ⟨fun w hw h21 => ?_, fun c sf rd rn rs rm s hp =>
    multiply_completes hp sf rd (product_add_eq_ofNat rn rs rm s)⟩
  rw [decode_of_isMultiplyWord hw, decodeMultiply, if_pos h21]

end Sys2Proof.Machine
end

section
/-! PROOFS. The family 43_single_data_transfer.md: addressing (O30), LDR and STR (O31, O32, O33), base and
data register the same (O34), and a load after a store (O36). -/

namespace Sys2Proof.Machine

/-! ### Addressing -/

/-- A base moved downwards (R122). -/
theorem indexedBase_down (rn : Reg) (off : Offset) (s : State) :
    indexedBase false rn off s = s.read (slotOf rn) - offsetValue off s := by
  simp [indexedBase, signedOffset, BitVec.sub_eq_add_neg]

/-- The moved base is in its register after a post-indexed write-back (R122). -/
theorem baseWrittenBack_post_read (up : Bool) (rn : Reg) (off : Offset) (s : State) :
    (baseWrittenBack false up rn off s).read (slotOf rn) = indexedBase up rn off s :=
  read_write_same _ _ _

/-- Settles O30: the definitions of the offset forms and of the address modes, downwards by subtraction. -/
theorem transferAddressing : Obligations.TransferAddressing := by
  refine ⟨fun bytes s => ?immediate, fun n k rm s => rfl, fun i v => ?forms, fun rn off s =>
    ⟨rfl, indexedBase_down rn off s, rfl, rfl, rfl, rfl, baseWrittenBack_post_read true rn off s,
      (baseWrittenBack_post_read false rn off s).trans (indexedBase_down rn off s)⟩⟩
  case immediate => exact BitVec.toNat_setWidth_of_le (by omega)
  case forms => cases i <;> exact ⟨rfl, rfl⟩

/-! ### The state after a transfer in memory -/

/-- The word a store stores: the base has been written back before `rd` is read (R124, R128). -/
def storedValue (pre up : Bool) (rn rd : Reg) (off : Offset) (s : State) : Word :=
  if pre = false ∧ rn = rd then indexedBase up rn off s else s.read (slotOf rd)

/-- The state after a load whose four bytes lie in memory. -/
def afterLoad (pre up : Bool) (rn rd : Reg) (off : Offset) (s : State) : State :=
  (loadWord rd (effectiveAddress pre up rn off s) (baseWrittenBack pre up rn off s)).setCtl .Continue

/-- The state after a store whose four bytes lie in memory. -/
def afterStore (pre up : Bool) (rn rd : Reg) (off : Offset) (s : State) : State :=
  (storeWord rd (effectiveAddress pre up rn off s) (baseWrittenBack pre up rn off s)).setCtl .Continue

section Transfer
variable {c : Cond} {pre up : Bool} {rn rd : Reg} {off : Offset} {s : State}

@[simp] theorem afterLoad_ctl : (afterLoad pre up rn rd off s).ctl = .Continue := rfl
@[simp] theorem afterStore_ctl : (afterStore pre up rn rd off s).ctl = .Continue := rfl

/-- A load changes nothing but slots. -/
theorem afterLoad_sameOutside : SameOutside s (afterLoad pre up rn rd off s) := by
  simp [SameOutside, afterLoad, loadWord]

/-- The slots after a load: the loaded word wins over the moved base (R128). -/
theorem afterLoad_read (j : Slot) :
    (afterLoad pre up rn rd off s).read j =
      if j = slotOf rd then s.mem.readWord (effectiveAddress pre up rn off s).toNat
      else if pre = false ∧ j = slotOf rn then indexedBase up rn off s else s.read j := by
  simp only [afterLoad, loadWord, setCtl_read, read_write, baseWrittenBack_read, baseWrittenBack_mem]

@[simp] theorem afterStore_f : (afterStore pre up rn rd off s).f = s.f := by simp [afterStore, storeWord]
@[simp] theorem afterStore_d : (afterStore pre up rn rd off s).d = s.d := by simp [afterStore, storeWord]
@[simp] theorem afterStore_reports : (afterStore pre up rn rd off s).reports = s.reports := by
  simp [afterStore, storeWord]

/-- The slots after a store: its base, when post-indexed. -/
theorem afterStore_read (j : Slot) :
    (afterStore pre up rn rd off s).read j =
      if pre = false ∧ j = slotOf rn then indexedBase up rn off s else s.read j :=
  baseWrittenBack_read pre up rn off s j

/-- The memory after a store. -/
theorem afterStore_mem :
    (afterStore pre up rn rd off s).mem =
      s.mem.writeWord (effectiveAddress pre up rn off s).toNat (storedValue pre up rn rd off s) := by
  simp only [afterStore, storeWord, setCtl_mem, setMem_mem, baseWrittenBack_mem, baseWrittenBack_read,
    slotOf_inj, storedValue, eq_comm (a := rd)]

/-- A stored word reads back (R36, R37). -/
theorem afterStore_readWord (hm : s.mem.wf = true)
    (hea : (effectiveAddress pre up rn off s).toNat ≤ 65532) :
    (afterStore pre up rn rd off s).mem.readWord (effectiveAddress pre up rn off s).toNat =
      storedValue pre up rn rd off s := by
  rw [afterStore_mem, Memory.readWord_writeWord_same hm _ hea]

/-! ### LDR and STR by their address -/

variable (hp : conditionPassed c s.flags = true)
include hp

theorem exec_ldr_inside (hea : (effectiveAddress pre up rn off s).toNat ≤ 65532) :
    exec (.ldr c pre up rn rd off) s = .next (afterLoad pre up rn rd off s) :=
  (whenPassed_passed _ hp).trans (transfer_inside _ _ _ _ _ _ _ _ hea)

theorem exec_str_inside (hea : (effectiveAddress pre up rn off s).toNat ≤ 65532) :
    exec (.str c pre up rn rd off) s = .next (afterStore pre up rn rd off s) :=
  (whenPassed_passed _ hp).trans (transfer_inside _ _ _ _ _ _ _ _ hea)

/-- Both transfers are refused where their four bytes straddle the end of memory (R42). -/
theorem exec_transfer_straddling (hlo : 65532 < (effectiveAddress pre up rn off s).toNat)
    (hhi : (effectiveAddress pre up rn off s).toNat < 65536) :
    exec (.ldr c pre up rn rd off) s = .refused (.straddlingAccess (effectiveAddress pre up rn off s)) ∧
    exec (.str c pre up rn rd off) s = .refused (.straddlingAccess (effectiveAddress pre up rn off s)) :=
  ⟨(whenPassed_passed _ hp).trans (transfer_straddling _ _ _ _ _ _ _ _ hlo hhi),
    (whenPassed_passed _ hp).trans (transfer_straddling _ _ _ _ _ _ _ _ hlo hhi)⟩

/-- Both transfers only report an address outside memory (R123, R156). -/
theorem exec_transfer_outside (hout : 65536 ≤ (effectiveAddress pre up rn off s).toNat) :
    exec (.ldr c pre up rn rd off) s =
      .next (s.reportAndContinue (.DataAddressOutOfBounds (effectiveAddress pre up rn off s))) ∧
    exec (.str c pre up rn rd off) s =
      .next (s.reportAndContinue (.DataAddressOutOfBounds (effectiveAddress pre up rn off s))) :=
  ⟨(whenPassed_passed _ hp).trans (transfer_outside _ _ _ _ _ _ _ hout),
    (whenPassed_passed _ hp).trans (transfer_outside _ _ _ _ _ _ _ hout)⟩

end Transfer

/-- The offset of a transfer word with the default parameter (R68, decision D6). -/
theorem Offset.ofBits_hardware (i : Bool) (v : BitVec 12) :
    Offset.ofBits Config.hardware i v = if i then .reg (ShiftedReg.ofBits v) else .imm v := by
  cases i <;> rfl

/-- Settles O31: the three ranges of the effective address. -/
theorem ldrRule : Obligations.LdrRule := by
  refine ⟨fun w hw h20 => ?encoding, fun c pre up rn rd off s hp => ⟨fun hea => ?inside,
    fun hlo hhi => (exec_transfer_straddling hp hlo hhi).1, fun hout => (exec_transfer_outside hp hout).1⟩⟩
  case encoding => rw [decode_of_transferClass hw, decodeTransfer, if_pos h20, Offset.ofBits_hardware]
  case inside =>
    refine ⟨_, exec_ldr_inside hp hea, afterLoad_ctl, ?_, fun hpost hne => ?_, fun j hrd hrn => ?_,
      afterLoad_sameOutside⟩
    · rw [afterLoad_read, if_pos rfl]
    · rw [afterLoad_read, if_neg (by simpa using hne), if_pos ⟨hpost, rfl⟩]
    · rw [afterLoad_read, if_neg hrd, if_neg fun ⟨hpost, he⟩ => hrn hpost he]

/-- Settles O32: the three ranges of the effective address. -/
theorem strRule : Obligations.StrRule := by
  refine ⟨fun w hw h20 => ?encoding, fun c pre up rn rd off s hp => ⟨fun hea => ?inside,
    fun hlo hhi => (exec_transfer_straddling hp hlo hhi).2, fun hout => (exec_transfer_outside hp hout).2⟩⟩
  case encoding =>
    rw [decode_of_transferClass hw, decodeTransfer, if_neg (Bool.eq_false_iff.mp h20),
      Offset.ofBits_hardware]
  case inside =>
    refine ⟨_, exec_str_inside hp hea, afterStore_ctl, fun hm k hk => ?_, fun x hx => ?_, fun hpost => ?_,
      fun j hrn => ?_, afterStore_f, afterStore_d, afterStore_reports⟩
    · rw [afterStore_mem, Memory.read_writeWord_same hm _ hea hk, toNat_byteOfWord, storedValue]
    · rw [afterStore_mem, Memory.read_writeWord_of_outside _ _ hx]
    · rw [afterStore_read, if_pos ⟨hpost, rfl⟩]
    · rw [afterStore_read, if_neg fun ⟨hpost, he⟩ => hrn hpost he]

/-- Settles O33: the range of the effective address that lies outside memory, for each parameter value. -/
theorem outOfBoundsTransferOnlyReports : Obligations.OutOfBoundsTransferOnlyReports := by
  refine ⟨fun c pre up rn rd off s hp hout i hi => ?suppressed, fun move up rn rd off s hout => ?written⟩
  case suppressed =>
    obtain ⟨hldr, hstr⟩ := exec_transfer_outside (rd := rd) hp hout
    obtain rfl | rfl : i = .ldr c pre up rn rd off ∨ i = .str c pre up rn rd off := by simpa using hi
    · exact hldr
    · exact hstr
  case written =>
    have hin : inBounds (s.read (slotOf rn)) = false := by
      rw [← Bool.not_eq_true, inBounds_iff]
      omega
    simp [transfer, effectiveAddress, baseWrittenBack, hin]

/-- Settles O34: what is left in the slot and in memory after each of the four transfers. -/
theorem baseEqualsDataRegister : Obligations.BaseEqualsDataRegister := by
  intro c up r off s hp hm
  refine ⟨fun hea => ⟨⟨_, exec_ldr_inside hp hea, ?_⟩, ⟨_, exec_str_inside hp hea, ?_, ?_⟩⟩,
    fun hea => ⟨⟨_, exec_ldr_inside hp hea, ?_⟩, ⟨_, exec_str_inside hp hea, ?_, ?_⟩⟩⟩
  · rw [afterLoad_read, if_pos rfl]
  · rw [afterStore_read, if_neg (by simp)]
  · rw [afterStore_readWord hm hea, storedValue, if_neg (by simp)]
  · rw [afterLoad_read, if_pos rfl]
    rfl
  · rw [afterStore_read, if_pos ⟨rfl, rfl⟩]
  · exact (afterStore_readWord (pre := false) (up := up) (off := off) hm hea).trans (if_pos ⟨rfl, rfl⟩)

/-- Settles O36: the load reads the four bytes the store wrote. -/
theorem loadAfterStoreReturnsWord : Obligations.LoadAfterStoreReturnsWord := by
  intro c c' pre pre' up up' rn rd rn' rd' off off' s t u hm hp hea hstore hp' hsame hload
  rw [exec_str_inside hp hea] at hstore
  obtain rfl : afterStore pre up rn rd off s = t := by simpa using hstore
  rw [exec_ldr_inside hp' (hsame ▸ hea)] at hload
  obtain rfl : afterLoad pre' up' rn' rd' off' _ = u := by simpa using hload
  rw [afterLoad_read, if_pos rfl, hsame, afterStore_readWord hm hea, storedValue]

end Sys2Proof.Machine
end

section
/-! PROOFS. The families 44_branch.md and 45_pipeline_halt.md: the exact branch test (O39), the phases of a
step (O40, O41, O42), the outcomes of instructions (O43, O44), the end of the run (O45), and the courses of
several steps (O46, O47, O48, O49). -/

namespace Sys2Proof.Machine

/-- Settles O39: the displacement is far smaller than 2^32, so the sum modulo 2^32 is the signed sum exactly
when that lies in memory. -/
theorem branchTestIsExact : Obligations.BranchTestIsExact := by
  intro offset s hpc
  have hdelta := toInt_branchDelta offset
  rw [BitVec.toInt_eq_toNat_cond] at hdelta
  have hlo := BitVec.le_toInt offset
  have hhi := BitVec.toInt_lt (x := offset)
  have hsum : (branchTarget offset s).toNat = (s.pc.toNat + (branchDelta offset).toNat) % 2 ^ 32 := by
    rw [branchTarget, BitVec.toNat_add]
  have hbound := (branchDelta offset).isLt
  rw [inBounds_iff, hsum]
  split at hdelta <;> omega

/-! ### One step, by its phases -/

/-- The state after a fetch (R144). -/
def fetched (t : State) : State := (t.setLatches (t.mem.readWord t.pc.toNat) t.f).write pcSlot (t.pc + 4)

@[simp] theorem fetched_mem (t : State) : (fetched t).mem = t.mem := rfl
@[simp] theorem fetched_f (t : State) : (fetched t).f = t.mem.readWord t.pc.toNat := rfl
@[simp] theorem fetched_d (t : State) : (fetched t).d = t.f := rfl
@[simp] theorem fetched_ctl (t : State) : (fetched t).ctl = t.ctl := rfl
@[simp] theorem fetched_reports (t : State) : (fetched t).reports = t.reports := rfl
@[simp] theorem fetched_pc (t : State) : (fetched t).pc = t.pc + 4 := write_pc_pc _ _

theorem fetched_read_of_ne (t : State) {j : Slot} (hj : j ≠ pcSlot) : (fetched t).read j = t.read j :=
  read_write_of_ne _ _ _ _ hj

theorem fetchPhase_eq_fetched {t : State} (hc : t.ctl ≠ .Stop) (hp : t.pc.toNat ≤ 65532) :
    fetchPhase t = .next (fetched t) :=
  fetchPhase_inside hc hp

/-- A fetch from 65533 to 65535 is refused (R42). -/
theorem fetchPhase_straddling {t : State} (hc : t.ctl ≠ .Stop) (hlo : 65532 < t.pc.toNat)
    (hhi : t.pc.toNat < 65536) : fetchPhase t = .refused (.straddlingFetch t.pc) := by
  obtain ⟨hs, -⟩ | ⟨-, -, he⟩ | ⟨-, hp, -⟩ := fetchPhase_cases t
  · rw [(not_stopped_iff t).mpr ⟨hc, hhi⟩] at hs
    cases hs
  · exact he
  · omega

/-- At `Continue` a step is the instruction in the decode latch and then phase 2 (R140, R141). -/
theorem step_of_exec {s t : State} (hs : s.stopped = false) (hc : s.ctl = .Continue)
    (h : exec (decode s.d) s = .next t) : step s = fetchPhase t := by
  rw [step_continue hs hc, h, thenFetch]

theorem not_stopped_of_continue {s : State} (hc : s.ctl = .Continue) (hp : s.pc.toNat < 65536) :
    s.stopped = false :=
  (not_stopped_iff s).mpr ⟨by simp [hc], hp⟩

theorem not_stopped_of_skip {s : State} (hc : s.ctl = .Skip) (hp : s.pc.toNat < 65536) :
    s.stopped = false :=
  (not_stopped_iff s).mpr ⟨by simp [hc], hp⟩

/-- A step at `Skip` with its fetch in memory (R142, R144). -/
theorem step_skip_eq_fetched {s : State} (hc : s.ctl = .Skip) (hp : s.pc.toNat ≤ 65532) :
    step s = .next (fetched (s.setCtl .Continue)) := by
  rw [step_skip (not_stopped_of_skip hc (by omega)) hc]
  exact fetchPhase_eq_fetched (by simp [discardWord]) hp

/-- A step at `Skip` with its fetch at the end of memory (R42, R142). -/
theorem step_skip_straddling {s : State} (hc : s.ctl = .Skip) (hlo : 65532 < s.pc.toNat)
    (hhi : s.pc.toNat < 65536) : step s = .refused (.straddlingFetch s.pc) := by
  rw [step_skip (not_stopped_of_skip hc hhi) hc]
  exact fetchPhase_straddling (by simp [discardWord]) hlo hhi

/-- Settles O40: the phases of a step, where there are any. -/
theorem stepRunsDecodedInstruction : Obligations.StepRunsDecodedInstruction := by
  refine fun s => ⟨fun i hs hc hi => ⟨fun t ht => ?_, fun r hr => ?_⟩, step_skip, step_stopped⟩
  · subst hi
    exact step_of_exec hs hc ht
  · rw [step_continue hs hc, hi, hr, thenFetch]

/-- Settles O41: the three ranges of `pc`. -/
theorem fetchPhaseRule : Obligations.FetchPhaseRule := by
  refine fun s => ⟨fun h => fetchPhase_stopped ((stopped_iff s).mpr h), fetchPhase_straddling,
    fun hc hp => ⟨_, fetchPhase_eq_fetched hc hp, rfl, rfl, ?_, fun j => fetched_read_of_ne s,
      fun _ => rfl, rfl, rfl⟩⟩
  rw [fetched_pc, BitVec.toNat_add_of_lt (by simp; omega)]
  rfl

/-- Settles O42: the discard reads nothing of the word, and the fetch puts another in its place. -/
theorem skipDiscardsAnyWord : Obligations.SkipDiscardsAnyWord := by
  intro s hc hp
  refine ⟨fun w => ?anyWord, fun hin => ?course⟩
  case anyWord =>
    obtain hin | hout := le_or_gt s.pc.toNat 65532
    · rw [step_skip_eq_fetched hc hin, step_skip_eq_fetched (s := { s with d := w }) hc hin]
      rfl
    · rw [step_skip_straddling hc hout hp, step_skip_straddling (s := { s with d := w }) hc hout hp]
      rfl
  case course =>
    exact ⟨_, step_skip_eq_fetched hc hin, rfl, rfl, rfl, fetched_pc _,
      fun j hj => fetched_read_of_ne _ hj, fun _ => rfl, rfl⟩

/-! ### Outcomes -/

/-- A branch that is taken (R132, R135). -/
def TakesBranch (i : Instr) (s : State) : Prop :=
  ∃ c offset, i = .b c offset ∧ conditionPassed c s.flags = true ∧
    (s.pc + branchDelta offset).toNat < 65536

/-- An instruction that is neither Halt nor a taken branch, with outcome `Continue`, agrees with R143. -/
theorem outcome_of_continue {i : Instr} {s t : State} (hc : t.ctl = .Continue) (hhalt : i ≠ .halt)
    (hbranch : ¬ TakesBranch i s) :
    (t.ctl = .Stop ↔ i = .halt) ∧ (t.ctl = .Skip ↔ TakesBranch i s) := by
  simp [hc, hhalt, hbranch]

/-- Only a Branch word takes a branch, and only Halt halts. -/
theorem outcome_of_variant {i : Instr} {s t : State} (hc : t.ctl = .Continue) (hhalt : i.variant ≠ .Halt)
    (hbranch : i.variant ≠ .Branch) :
    (t.ctl = .Stop ↔ i = .halt) ∧ (t.ctl = .Skip ↔ TakesBranch i s) := by
  refine outcome_of_continue hc ?_ ?_
  · rintro rfl
    exact hhalt rfl
  · rintro ⟨c, offset, rfl, -⟩
    exact hbranch rfl

/-- Settles O43: the controller in each case of `exec`. -/
theorem outcomeOfExecute : Obligations.OutcomeOfExecute := by
  intro i s t h
  change _ ∧ (_ ↔ TakesBranch i s)
  cases exec_next_cases h with
  | halt hi => simp [hi, TakesBranch]
  | taken c offset hi hp hin =>
    subst hi
    have htakes : TakesBranch (.b c offset) s := ⟨c, offset, rfl, hp, (inBounds_iff _).mp hin⟩
    simp [htakes]
  | branchReported c offset hi hp hout =>
    subst hi
    refine outcome_of_continue rfl nofun ?_
    rintro ⟨c', offset', he, -, hin⟩
    cases he
    exact Bool.false_ne_true (hout.symm.trans ((inBounds_iff _).mpr hin))
  | failed c hi hfail =>
    refine outcome_of_continue rfl (by rintro rfl; cases hi) ?_
    rintro ⟨c', offset, rfl, hp, -⟩
    cases hi
    exact Bool.false_ne_true (hfail.symm.trans hp)
  | dataProcessing c w op sf rn rd op2 _ _ hv =>
    exact outcome_of_variant (by simp) (by simp [hv]) (by simp [hv])
  | multiply c sf rd res _ _ hv => exact outcome_of_variant (by simp) (by simp [hv]) (by simp [hv])
  | transferReported ea hv => exact outcome_of_variant rfl (by simp [hv]) (by simp [hv])
  | load c pre up rn rd off hi =>
    exact outcome_of_variant rfl (by simp [hi, Instr.variant]) (by simp [hi, Instr.variant])
  | store c pre up rn rd off hi =>
    exact outcome_of_variant rfl (by simp [hi, Instr.variant]) (by simp [hi, Instr.variant])

/-- Settles O44: the words of Halt, its meaning, and phase 2 after `Stop`. -/
theorem haltRule : Obligations.HaltRule := by
  refine ⟨rfl, fun w => ?words, fun s => ⟨rfl, fun hc hp hd => ?step⟩⟩
  case words =>
    have hvariant : decode w = .halt ↔ (decode w).variant = .Halt := by
      cases decode w <;> simp [Instr.variant]
    exact hvariant.trans variant_decode_eq_iff
  case step =>
    rw [step_of_exec (not_stopped_of_continue hc hp) hc (t := s.setCtl .Stop) (by rw [hd]; rfl)]
    exact fetchPhase_stopped ((stopped_iff _).mpr (.inl rfl))

/-- A run takes its first step and goes on from there. -/
theorem run_succ {s t : State} (h : step s = .next t) (k : Nat) :
    Sys2Proof.core.run (k + 1) s = Sys2Proof.core.run k t := by
  have hcore : Sys2Proof.core.step s = .next t := h
  simp only [Host.Core.run, hcore]

/-- Settles O45: a step of an ended core is the identity, so any number of them is. -/
theorem stoppedCoreStays : Obligations.StoppedCoreStays := by
  refine fun s => ⟨stopped_iff s, fun hs k => ?_⟩
  induction k with
  | zero => rfl
  | succ k ih => exact (run_succ (step_stopped hs) k).trans ih

/-! ### Courses of several steps -/

/-- A passing branch in the decode latch, to a target from which the fetch is possible (R132, R135, R144). -/
theorem step_taken_branch {c : Cond} {offset : BitVec 24} {s : State} (hc : s.ctl = .Continue)
    (hpc : s.pc.toNat < 65536) (hd : decode s.d = .b c offset) (hp : conditionPassed c s.flags = true)
    (htarget : (s.pc + branchDelta offset).toNat ≤ 65532) :
    step s = .next (fetched ((s.write pcSlot (s.pc + branchDelta offset)).setCtl .Skip)) := by
  have hexec : exec (decode s.d) s = .next ((s.write pcSlot (branchTarget offset s)).setCtl .Skip) := by
    rw [hd, exec_b_passed offset hp, branchEffect_inside]
    exact Nat.lt_of_le_of_lt htarget (by decide)
  rw [step_of_exec (not_stopped_of_continue hc hpc) hc hexec]
  refine fetchPhase_eq_fetched (by simp) ?_
  rwa [setCtl_pc, write_pc_pc]

/-- Settles O46: the branch's step fetches at the target, and the discard's step after it. -/
theorem takenBranchCourse : Obligations.TakenBranchCourse := by
  intro c offset s hc hpc hd hp htarget
  have h1 := step_taken_branch hc hpc hd hp (by omega)
  generalize s.pc + branchDelta offset = target at *
  have hpc1 : (target + 4).toNat = target.toNat + 4 := by bv_omega
  have h2 := step_skip_eq_fetched (s := fetched ((s.write pcSlot target).setCtl .Skip)) rfl
    (by simp only [fetched_pc, setCtl_pc, write_pc_pc, hpc1]; omega)
  refine ⟨_, _, h1, h2, rfl, rfl, ?_, ?_, rfl, ?_, ?_, ?_, fun j hj => ?_, fun _ => rfl, rfl⟩
  · simp
  · simp
  · simp
  · rw [fetched_f, setCtl_pc, fetched_pc, setCtl_pc, write_pc_pc, hpc1]
    rfl
  · simp [BitVec.add_assoc]
  · rw [fetched_read_of_ne _ hj, setCtl_read, fetched_read_of_ne _ hj, setCtl_read,
      read_write_of_ne _ _ _ _ hj]

/-- Settles O47: the fetches of the writing instruction's step and of the step after it. -/
theorem pcWriteHasOneDelaySlot : Obligations.PcWriteHasOneDelaySlot := by
  intro s t hs hc hexec htc
  have hstep := step_of_exec hs hc hexec
  have hne : t.ctl ≠ .Stop := by simp [htc]
  refine ⟨fun hout => ?outside, fun hlo hhi => hstep.trans (fetchPhase_straddling hne hlo hhi),
    fun hin => ⟨fetched t, hstep.trans (fetchPhase_eq_fetched hne hin), htc,
      (exec_keeps_latches hexec).1, rfl, fetched_pc t, fun j => fetched_read_of_ne t, fun _ => rfl, rfl,
      fun hin' v hv hvc hvpc => ?delaySlot⟩⟩
  case outside =>
    have hstopped : t.stopped = true := (stopped_iff t).mpr (.inr hout)
    exact ⟨hstep.trans (fetchPhase_stopped hstopped), hstopped⟩
  case delaySlot =>
    have hpc : (t.pc + 4).toNat = t.pc.toNat + 4 := by bv_omega
    rw [fetched_pc] at hvpc
    have hu : (fetched t).stopped = false :=
      not_stopped_of_continue htc (by rw [fetched_pc, hpc]; omega)
    have hd : exec (decode (fetched t).d) (fetched t) = .next v := by
      rwa [fetched_d, (exec_keeps_latches hexec).1]
    refine ⟨fetched v, ?_, hvc, (exec_keeps_latches hv).1, ?_, ?_⟩
    · rw [step_of_exec hu htc hd]
      exact fetchPhase_eq_fetched (by simp [hvc]) (by rw [hvpc, hpc]; omega)
    · rw [fetched_f, hvpc, hpc]
    · rw [fetched_pc, hvpc, BitVec.add_assoc]
      rfl

/-- Settles O48: the fetch of the store's own step reads memory after the store. -/
theorem storeSeenByLaterFetchOnly : Obligations.StoreSeenByLaterFetchOnly := by
  intro c pre up rn rd off s p hc hpc hd hp hea hP hp' hm
  have hexec : exec (decode s.d) s = .next (afterStore pre up rn rd off s) := by
    rw [hd, exec_str_inside hp hea]
  have hpc' : (afterStore pre up rn rd off s).pc = p := by
    rw [hP]
    simp only [State.pc, afterStore_read, eq_comm (a := pcSlot)]
  have hstored := afterStore_readWord (rd := rd) hm hea
  refine ⟨fetched (afterStore pre up rn rd off s), ?_, afterStore_f (rd := rd), ?_, ?_, hstored, fun he => ?_⟩
  · rw [step_of_exec (not_stopped_of_continue hc hpc) hc hexec]
    exact fetchPhase_eq_fetched (by simp) (by rwa [hpc'])
  · rw [fetched_f, fetched_mem, hpc']
  · rw [fetched_pc, hpc']
  · rw [fetched_f, hpc', ← he]
    exact hstored

/-- Settles O49: after the branch's fetch, or the discard's, `pc` is 65536. -/
theorem branchToTopEndsRun : Obligations.BranchToTopEndsRun := by
  intro c offset s hc hpc hd hp
  have hstep (htarget : (s.pc + branchDelta offset).toNat ≤ 65532) :=
    step_taken_branch hc hpc hd hp htarget
  generalize s.pc + branchDelta offset = target at *
  refine ⟨fun h => ⟨_, hstep (by omega), ?_, rfl, rfl⟩, fun h => ?_⟩
  · refine (stopped_iff _).mpr (.inr ?_)
    simp only [fetched_pc, setCtl_pc, write_pc_pc]
    bv_omega
  · have hpc1 : (fetched ((s.write pcSlot target).setCtl .Skip)).pc.toNat = 65532 := by
      simp only [fetched_pc, setCtl_pc, write_pc_pc]
      bv_omega
    refine ⟨_, _, hstep (by omega), step_skip_eq_fetched rfl (by omega),
      not_stopped_of_skip rfl (by omega), (stopped_iff _).mpr (.inr ?_), rfl, rfl⟩
    rw [fetched_pc, setCtl_pc]
    bv_omega

end Sys2Proof.Machine
end

section
/-! PROOFS. The family 70_reset_and_hazards.md: the invariant at reset (O51), the reset sequence (O56) and the
loaded image (O57). -/

namespace Sys2Proof.Machine

/-- The state after reset meets the invariant over any memory in canonical form. -/
theorem inv_afterReset {m : Memory} (hm : m.wf = true) : Inv (State.afterReset m) :=
  ⟨hm, by rw [afterReset_cpsr]; rfl, nofun⟩

/-- An image that fits is loaded from address 0 (R173). -/
theorem load_of_fits {image : List Byte} (h : image.length ≤ 65536) :
    State.load image = some (State.afterReset (Memory.ofImage image)) :=
  if_pos h

/-- A longer image is not run (R171, R174). -/
theorem load_of_too_long {image : List Byte} (h : 65536 < image.length) : State.load image = none :=
  if_neg (Nat.not_le.mpr h)

/-- Settles O51: a reset is made over empty memory, over an image's memory, or over a memory kept so far. -/
theorem invariantAtReset : Obligations.InvariantAtReset := by
  refine ⟨inv_afterReset Memory.empty_wf, fun image s hload => ?image, fun s hs => inv_afterReset hs.mem_wf⟩
  case image =>
    obtain hfits | hlong := le_or_gt image.length 65536
    · rw [load_of_fits hfits] at hload
      cases hload
      exact inv_afterReset (Memory.ofImage_wf hfits)
    · rw [load_of_too_long hlong] at hload
      cases hload

/-- Settles O56: the fields of the state after reset, and the discard of the first cycle. -/
theorem resetSequence : Obligations.ResetSequence := by
  intro m
  refine ⟨fun j => afterReset_read_of_ne m, rfl, rfl, rfl, rfl, not_stopped_of_skip rfl ?_,
    fun s hs => congrArg State.afterReset hs, _, step_skip_eq_fetched rfl ?_, rfl, rfl, rfl, ?_⟩
  · rw [afterReset_pc]
    decide
  · rw [afterReset_pc]
    decide
  · rw [fetched_pc]
    rfl

/-- Bytes from the end of a stored image up are as before (R173). -/
theorem storeImage_read_above : ∀ (image : List Byte) (m : Memory) {a x : Nat}, a + image.length ≤ x →
    (storeImage m a image).read x = m.read x
  | [], _, _, _, _ => rfl
  | v :: rest, m, a, x, h => by
    rw [List.length_cons] at h
    rw [storeImage, storeImage_read_above rest _ (by omega), Memory.read_write_of_ne _ _ (by omega)]

/-- The bytes of a stored image lie in order from its address up (R173). -/
theorem storeImage_read : ∀ (image : List Byte) {m : Memory} {a k : Nat}, m.wf = true →
    a + image.length ≤ Config.memSize → k < image.length →
    some ((storeImage m a image).read (a + k)) = image[k]?
  | v :: rest, m, a, 0, hm, h, _ => by
    rw [storeImage, storeImage_read_below rest _ (by omega), Nat.add_zero, Memory.read_write_same hm]
    rfl
  | v :: rest, m, a, k + 1, hm, h, hk => by
    rw [List.length_cons] at h hk
    have hnext : a + (k + 1) = a + 1 + k := by omega
    rw [storeImage, hnext, List.getElem?_cons_succ]
    exact storeImage_read rest (Memory.write_wf hm v (by omega)) (by omega) (by omega)

/-- Settles O57: the bytes of the image and the bytes above it, by the laws of storing an image. -/
theorem imageIsLoaded : Obligations.ImageIsLoaded := by
  refine fun image => ⟨fun hfits => ⟨_, load_of_fits hfits, fun x hx => ?below, fun x hx => ?above⟩,
    load_of_too_long⟩
  case below =>
    have hread := storeImage_read image (a := 0) Memory.empty_wf (by rwa [Nat.zero_add]) hx
    rwa [Nat.zero_add] at hread
  case above =>
    exact (storeImage_read_above image _ (by omega)).trans (Memory.empty_read x)

end Sys2Proof.Machine
end

section
/-! PROOFS. The source-text conventions of 30_encoding.md, section 8: immediates (O58), branch operands (O59)
and the load-immediate (O60). -/

namespace Sys2Proof.Machine

/-! ### Branch operands -/

/-- The branch field of a distance that is a multiple of 4 within reach gives the distance back (R69, R83). -/
theorem branchDelta_of_distance {d : Word} (hmod : d.toNat % 4 = 0) (hlo : -2 ^ 25 ≤ d.toInt)
    (hhi : d.toInt < 2 ^ 25) : branchDelta ((d.sshiftRight 2).setWidth 24) = d := by
  refine BitVec.eq_of_toInt_eq ?_
  have hshift : (d.sshiftRight 2).toInt = d.toInt / 4 := by
    rw [BitVec.toInt_sshiftRight, Int.shiftRight_eq_div_pow]
    rfl
  have hfield : ((d.sshiftRight 2).setWidth 24).toInt = d.toInt / 4 := by
    have hword := BitVec.toInt_eq_toNat_cond (d.sshiftRight 2)
    have hlow := BitVec.toInt_eq_toNat_cond ((d.sshiftRight 2).setWidth 24)
    rw [BitVec.toNat_setWidth] at hlow
    split at hword <;> split at hlow <;> omega
  have hd := BitVec.toInt_eq_toNat_cond d
  rw [toInt_branchDelta, hfield]
  split at hd <;> omega

/-- Settles O59: the assembled field holds the distance from `pc` to the target. -/
theorem assembledBranchReachesTarget : Obligations.AssembledBranchReachesTarget := by
  intro a target s ha htarget hamod htmod hpc
  have hd : (target - a - 8).toInt = (target.toNat : Int) - a.toNat - 8 := by
    rw [BitVec.toInt_eq_toNat_cond]
    split <;> bv_omega
  have hdelta : branchDelta (branchOffsetField target a) = target - a - 8 :=
    branchDelta_of_distance (by bv_omega) (by omega) (by omega)
  have hreach : branchTarget (branchOffsetField target a) s = target := by
    rw [branchTarget, hdelta, hpc]
    bv_omega
  refine ⟨(s.write pcSlot target).setCtl .Skip, ?_, by simp, rfl⟩
  rw [exec_b_passed _ rfl, branchEffect_inside (by rwa [hreach]), hreach]

/-! ### Immediates -/

/-- Bit `i` of a word rotated left by 2 (R82). -/
theorem getLsbD_rotateLeft2 (v : Word) {i : Nat} (hi : i < 32) :
    (rotateLeft2 v).getLsbD i = v.getLsbD ((i + 30) % 32) := by
  rw [rotateLeft2, BitVec.getLsbD_or, BitVec.getLsbD_shiftLeft, BitVec.getLsbD_ushiftRight]
  by_cases h : i < 2
  · have h1 : (i + 30) % 32 = 30 + i := by omega
    simp only [h, h1, decide_true, Bool.not_true, Bool.and_false, Bool.false_and, Bool.false_or]
  · have h1 : (i + 30) % 32 = i - 2 := by omega
    have h2 : v.getLsbD (30 + i) = false := BitVec.getLsbD_of_ge _ _ (by omega)
    simp only [hi, h, h1, h2, decide_true, decide_false, Bool.not_false, Bool.true_and, Bool.or_false]

/-- Bit `i` after `k` rotations. -/
theorem getLsbD_iterate_rotateLeft2 (v : Word) (k : Nat) {i : Nat} (hi : i < 32) :
    (rotateLeft2^[k] v).getLsbD i = v.getLsbD ((i + 30 * k) % 32) := by
  induction k generalizing v with
  | zero => rw [Nat.mul_zero, Nat.add_zero, Nat.mod_eq_of_lt hi, Function.iterate_zero_apply]
  | succ k ih =>
    have hidx : ((i + 30 * k) % 32 + 30) % 32 = (i + 30 * (k + 1)) % 32 := by omega
    rw [Function.iterate_succ_apply, ih, getLsbD_rotateLeft2 _ (by omega), hidx]

/-- A word is a byte rotated right by `2 * rot` exactly when `rot` rotations left by 2 give the byte
(R65, R82). -/
theorem immediateValue_eq_iff {rot : Fin 16} {imm8 : Byte} {v : Word} :
    immediateValue rot imm8 = v ↔ rotateLeft2^[rot.val] v = imm8.setWidth 32 := by
  constructor
  · rintro rfl
    refine BitVec.eq_of_getLsbD_eq fun i hi => ?_
    have hidx : ((i + 30 * rot.val) % 32 + 2 * rot.val) % 32 = i := by omega
    rw [getLsbD_iterate_rotateLeft2 _ _ hi, immediateValue, getLsbD_ror32 _ _ (by omega), hidx]
  · intro h
    refine BitVec.eq_of_getLsbD_eq fun i hi => ?_
    have hidx : ((i + 2 * rot.val) % 32 + 30 * rot.val) % 32 = i := by omega
    rw [immediateValue, getLsbD_ror32 _ _ hi, ← h, getLsbD_iterate_rotateLeft2 _ _ (by omega), hidx]

/-- A word below 256 is its low byte. -/
theorem setWidth_setWidth_byte {v : Word} (h : v.toNat ≤ 255) : (v.setWidth 8).setWidth 32 = v := by
  refine BitVec.eq_of_toNat_eq ?_
  simp only [BitVec.toNat_setWidth]
  omega

/-- A rotation count represents a word when that many rotations left by 2 bring it into 8 bits. -/
theorem exists_immediateValue_eq_iff {rot : Fin 16} {v : Word} :
    (∃ imm8, immediateValue rot imm8 = v) ↔ (rotateLeft2^[rot.val] v).toNat ≤ 255 := by
  simp only [immediateValue_eq_iff]
  refine ⟨fun ⟨imm8, h⟩ => ?_, fun h => ⟨_, (setWidth_setWidth_byte h).symm⟩⟩
  rw [h, BitVec.toNat_setWidth]
  omega

/-- A successful search ends at the first rotation that fits 8 bits. -/
theorem legalizeFrom_eq_some {left rot : Nat} {w : Word} {op2 : Operand2}
    (h : legalizeFrom left rot w = some op2) :
    ∃ k, k < left ∧ op2 = .imm (Fin.ofNat 16 (rot + k)) ((rotateLeft2^[k] w).setWidth 8) ∧
      (rotateLeft2^[k] w).toNat ≤ 255 ∧ ∀ j, j < k → 255 < (rotateLeft2^[j] w).toNat := by
  induction left generalizing rot w with
  | zero => cases h
  | succ left ih =>
    rw [legalizeFrom] at h
    split at h
    · next hfits =>
      cases h
      exact ⟨0, Nat.succ_pos left, rfl, hfits, nofun⟩
    · next hbig =>
      obtain ⟨k, hk, rfl, hfits, hmin⟩ := ih h
      have hrot : rot + 1 + k = rot + (k + 1) := by omega
      refine ⟨k + 1, Nat.succ_lt_succ hk, by rw [hrot]; rfl, hfits, fun j hj => ?_⟩
      cases j with
      | zero => exact Nat.not_le.mp hbig
      | succ j => exact hmin j (Nat.lt_of_succ_lt_succ hj)

/-- The search succeeds when one of its rotations fits 8 bits. -/
theorem exists_legalizeFrom {left k : Nat} (rot : Nat) {w : Word} (hk : k < left)
    (hfits : (rotateLeft2^[k] w).toNat ≤ 255) :
    ∃ rot' imm8, legalizeFrom left rot w = some (.imm rot' imm8) := by
  induction left generalizing rot w k with
  | zero => cases hk
  | succ left ih =>
    rw [legalizeFrom]
    split
    · exact ⟨_, _, rfl⟩
    · next hbig =>
      cases k with
      | zero => exact absurd hfits hbig
      | succ k => exact ih (rot + 1) (Nat.lt_of_succ_lt_succ hk) hfits

/-- Settles O58: the search tries the sixteen rotation counts in rising order, and a count represents the
value exactly when its rotation fits 8 bits. -/
theorem legalizedImmediates : Obligations.LegalizedImmediates := by
  refine ⟨fun v rot imm8 h => ?exact, fun rot imm8 => ?total⟩
  case exact =>
    obtain ⟨k, hk, himm, hfits, hmin⟩ := legalizeFrom_eq_some h
    obtain ⟨rfl, rfl⟩ := Operand2.imm.inj himm
    have hrot : (Fin.ofNat 16 (0 + k)).val = k := by
      rw [Nat.zero_add, Fin.val_ofNat, Nat.mod_eq_of_lt hk]
    refine ⟨immediateValue_eq_iff.mpr ?_, fun rot' imm8' h' => ?_⟩
    · rw [hrot, setWidth_setWidth_byte hfits]
    · rw [Fin.le_def, hrot]
      by_contra hlt
      have hbig := hmin rot'.val (Nat.not_le.mp hlt)
      have hsmall := exists_immediateValue_eq_iff.mp ⟨imm8', h'⟩
      omega
  case total => exact exists_legalizeFrom 0 rot.isLt (exists_immediateValue_eq_iff.mp ⟨imm8, rfl⟩)

/-! ### The load-immediate -/

/-- An immediate with rotation count 0 is its byte. -/
theorem immediateValue_zero {v : Word} (h : v.toNat ≤ 255) : immediateValue 0 (v.setWidth 8) = v :=
  immediateValue_eq_iff.mpr (setWidth_setWidth_byte h).symm

/-- A distance below 4096 fits the 12-bit offset field. -/
theorem setWidth_setWidth_offset {d : Word} (h : d.toNat ≤ 4095) : (d.setWidth 12).setWidth 32 = d := by
  refine BitVec.eq_of_toNat_eq ?_
  simp only [BitVec.toNat_setWidth]
  omega

/-- The literal load is a pre-indexed load from slot 15 whose effective address is the literal's (R84). -/
theorem literalLoad_reaches {rd : Reg} {literal a : Word} {s : State} (ha : a.toNat < 65528)
    (hliteral : literal.toNat ≤ 65532) (hpc : s.pc = a + 8) (hup : literal.toNat ≤ a.toNat + 8 + 4095)
    (hdown : a.toNat + 8 ≤ literal.toNat + 4095) :
    ∃ up off, literalLoad rd literal a = .ldr .al true up 15 rd off ∧
      effectiveAddress true up 15 off s = literal := by
  have hbase : s.read (slotOf 15) = a + 8 := hpc
  unfold literalLoad
  split
  · refine ⟨true, _, rfl, ?_⟩
    have hfits : (literal - a - 8).toNat ≤ 4095 := by bv_omega
    simp only [effectiveAddress, indexedBase, signedOffset, offsetValue, if_true, hbase,
      setWidth_setWidth_offset hfits]
    bv_omega
  · refine ⟨false, _, rfl, ?_⟩
    have hfits : (a + 8 - literal).toNat ≤ 4095 := by bv_omega
    simp only [effectiveAddress, if_true, indexedBase_down, offsetValue, hbase,
      setWidth_setWidth_offset hfits]
    bv_omega

/-- Settles O60: the MOV's operand is the value, and the load's effective address is the literal's. -/
theorem loadImmediateLoadsValue : Obligations.LoadImmediateLoadsValue := by
  intro rd value literal a s ha hliteral hpc
  refine ⟨fun hsmall => ?mov, fun hbig hup hdown hmem => ?load⟩
  case mov =>
    obtain ⟨t, hexec, -, hresult, -⟩ := movRule.2 .al false 0 rd (.imm 0 (value.setWidth 8)) s rfl
    rw [loadImmediate, if_pos hsmall]
    exact ⟨t, hexec, (hresult rfl).trans (immediateValue_zero hsmall)⟩
  case load =>
    obtain ⟨up, off, hinstr, hea⟩ := literalLoad_reaches (rd := rd) ha hliteral hpc hup hdown
    rw [loadImmediate, if_neg (Nat.not_le.mpr hbig), hinstr]
    refine ⟨_, exec_ldr_inside rfl (by rwa [hea]), ?_⟩
    rw [afterLoad_read, if_pos rfl, hea, hmem]

end Sys2Proof.Machine
end
